-- ==== Sys2Proof/Word.lean ====
section
/-!
DEFINITION. The types of the values the spec treats as bits or as characters.
-/

namespace Sys2Proof

/-- A register, a memory cell, an ALU result: the 32-bit pattern of an `int32`
(00_scope.md R5 `XLEN`, R6). Its signed reading is `BitVec.toInt`. -/
abbrev Word := BitVec 32

/-- The canonical instruction word, 64 bits (30_encoding.md R98). -/
abbrev Ciw := BitVec 64

/-- Source text, one line of it, a token or a display string: characters in order
(30_encoding.md R81). A list, so that the kernel evaluates the decoder. -/
abbrev Text := List Char

end Sys2Proof
end

