-- ==== Sys2Proof/Machine/Flags.lean ====
section
/-!
DEFINITION. The block has no flags and no condition codes (10_state.md R34): a comparison gives 0 or
1, which goes to a general register. This is that outcome.
-/

namespace Sys2Proof.Machine

/-- 1 if `a < b` else 0, as integers: signed and exact (41_reg_reg_alu.md R155, 42_reg_imm.md R172). -/
def lessThan (a b : Int) : Int := if a < b then 1 else 0

end Sys2Proof.Machine
end

