-- ==== Sys2Proof/Config.lean ====
section
/-!
DEFINITION. What an implementation fixes (00_scope.md R5) and the free values: constants
without a body, of which nothing can be proved but what their type says.
-/

namespace Sys2Proof

/-- `PC_STEP`: distance between consecutive instruction addresses (00_scope.md R5). -/
def Config.pcStep : Nat := 4

/-- `PC_BASE`: address of the first instruction and pc after a load (00_scope.md R5). -/
def Config.pcBase : Nat := 0

/-- A display code: seven characters (46_host_interface.md R208). -/
abbrev Config.Code7 := Vector Char 7

/-- `"0000000"`, the code of every mnemonic without an entry (46_host_interface.md R208, R209). -/
def Config.defaultCode : Config.Code7 := Vector.replicate 7 '0'

/-- The branch-equal name as this spec writes it (30_encoding.md R94). -/
def Config.beqName : Text := "BEQ".toList

/-- The display code of the branch-equal name: the static table has an entry for it and the
spec gives no value (46_host_interface.md R209, D22). Free value, log entry 6 (DESIGN CHOICE, safe). -/
opaque Config.beqCode : Config.Code7

/-- The other entries of the static table `OPCODE7`: a finite set of keys, neither keys nor codes
given (46_host_interface.md R209, D22). Free value, log entry 6 (DESIGN CHOICE, safe). -/
opaque Config.opcode7Rest : List (Text × Config.Code7)

/-- The display code of an `UNKNOWN` read from a word, whose mnemonic the word does not keep
(30_encoding.md R101): a fresh free value at each use, log entry 7 (DESIGN CHOICE, safe). -/
opaque Config.lostCode : Nat → Config.Code7

end Sys2Proof
end

