-- ==== Sys2Proof/Syntax.lean ====
section
/-!
DEFINITION. The decoded instruction `DecodedInstr` of 30_encoding.md R97: one constructor per row
of spec/opcode_table.json, with the operands as values.
-/

namespace Sys2Proof

/-- A register index, 0 to 31 (10_state.md R21). An index of 32 or more does not exist here:
a text that resolves to one is refused by the decoder (30_encoding.md R88). -/
abbrev Reg := Fin 32

/-- The two causes of an execute-time fault (60_exceptions.md R222). -/
inductive FaultCause where
  /-- the immediate or offset token exists and contains no leading integer (30_encoding.md R89 (b)) -/
  | badImmediate
  /-- the format reads a token that the line does not have (30_encoding.md R90) -/
  | missingOperand
  deriving DecidableEq, Repr

/-- The inputs to which the spec gives no meaning: `decode` is refused (30_encoding.md R97). -/
inductive DecodeRefusal where
  /-- a register operand that the format reads resolves to 32 or more (30_encoding.md R88, D5) -/
  | registerOutOfRange
  /-- an immediate token begins with an integer and goes on, or with `+` and a digit
  (30_encoding.md R89 (c), D6) -/
  | partlyNumericImmediate
  /-- an accepted line of separators only (30_encoding.md R103, D9) -/
  | lineWithoutToken
  /-- a character outside ASCII (30_encoding.md R104, D17) -/
  | nonAsciiText
  deriving DecidableEq, Repr

/-- A decoded instruction (30_encoding.md R97). Operand names and order are the table's. -/
inductive Instr where
  | add (rd rs1 rs2 : Reg)
  | sub (rd rs1 rs2 : Reg)
  | and (rd rs1 rs2 : Reg)
  | or (rd rs1 rs2 : Reg)
  | slt (rd rs1 rs2 : Reg)
  | mult (rd rs1 rs2 : Reg)
  | sll (rd rs1 rs2 : Reg)
  | addi (rd rs1 : Reg) (imm : Int)
  | slti (rd rs1 : Reg) (imm : Int)
  | lw (rd rs1 : Reg) (offset : Int)
  | sw (rs2 rs1 : Reg) (offset : Int)
  | print (rs : Reg)
  /-- `UNKNOWN(BEQ)`: the branch-equal name, a named no-op (44_output_and_unknown.md R192) -/
  | beq
  /-- `UNKNOWN(m)`: any other mnemonic. `none` is an `UNKNOWN` read from a word, where the
  mnemonic is not kept (30_encoding.md R101) -/
  | unknown (m : Option Text)
  /-- a recognised mnemonic whose operand decode faults (44_output_and_unknown.md R193) -/
  | opfault (cause : FaultCause)
  deriving DecidableEq, Repr

end Sys2Proof
end

