-- ==== Sys2Proof/WellFormed.lean ====
section
/-!
DEFINITION. Which terms of `Instr` are decoded instructions of the spec, and which of them have a
word image.
-/

namespace Sys2Proof

/-- The range of an `int32` (00_scope.md R6). -/
abbrev InInt32 (v : Int) : Prop := -2147483648 ≤ v ∧ v ≤ 2147483647

/-- The twelve recognised mnemonics, in the spec's order (30_encoding.md R92). -/
def recognisedMnemonics : List Text :=
  ["ADD".toList, "SUB".toList, "AND".toList, "OR".toList, "SLT".toList, "MULT".toList,
    "SLL".toList, "ADDI".toList, "SLTI".toList, "LW".toList, "SW".toList, "PRINT".toList]

/-- A character that can stand in an uppercased token of an accepted line: ASCII, not a line
separator, not whitespace, not a separator, not a lower-case letter (30_encoding.md R83, R84, R104). -/
def mnemonicChar (c : Char) : Bool :=
  c.toNat < 128 && !([9, 10, 11, 12, 13, 32, 40, 41, 44].contains c.toNat)
    && !(97 ≤ c.toNat && c.toNat ≤ 122)

/-- `m` can be the mnemonic of an unrecognised instruction: it is a non-empty uppercased token, and
it is neither a recognised mnemonic nor the branch-equal name (30_encoding.md R83, R84, R92 to R94). -/
def unrecognisedMnemonic (m : Text) : Bool :=
  !m.isEmpty && m.all mnemonicChar
    && !recognisedMnemonics.contains m && (m != Config.beqName)

/-- A decoded instruction of the spec (30_encoding.md R97). Register indices are in range by their
type and an immediate may be any integer, so the one check is on the mnemonic of an `UNKNOWN`. -/
def Instr.wellFormed : Instr → Bool
  | .add _ _ _ | .sub _ _ _ | .and _ _ _ | .or _ _ _ | .slt _ _ _ | .mult _ _ _ | .sll _ _ _ => true
  | .addi _ _ _ | .slti _ _ _ | .lw _ _ _ | .sw _ _ _ => true
  | .print _ | .beq | .opfault _ => true
  | .unknown none => true
  | .unknown (some m) => unrecognisedMnemonic m

/-- The immediate or offset of an instruction that has one. -/
def Instr.immediate? : Instr → Option Int
  | .addi _ _ imm | .slti _ _ imm => some imm
  | .lw _ _ offset | .sw _ _ offset => some offset
  | .add _ _ _ | .sub _ _ _ | .and _ _ _ | .or _ _ _ | .slt _ _ _ | .mult _ _ _ | .sll _ _ _ => none
  | .print _ | .beq | .unknown _ | .opfault _ => none

/-- `encode` is defined exactly when every immediate is an `int32` (30_encoding.md R101). -/
def Instr.hasWord (i : Instr) : Bool :=
  i.immediate?.all fun v => decide (InInt32 v)

/-- What a word keeps of an instruction: all of it but the mnemonic of an `UNKNOWN` and the cause
of an `OPFAULT` (30_encoding.md R100, R101). -/
def Instr.kept : Instr → Instr
  | .unknown _ => .unknown none
  | .opfault _ => .opfault .badImmediate
  | .add rd rs1 rs2 => .add rd rs1 rs2
  | .sub rd rs1 rs2 => .sub rd rs1 rs2
  | .and rd rs1 rs2 => .and rd rs1 rs2
  | .or rd rs1 rs2 => .or rd rs1 rs2
  | .slt rd rs1 rs2 => .slt rd rs1 rs2
  | .mult rd rs1 rs2 => .mult rd rs1 rs2
  | .sll rd rs1 rs2 => .sll rd rs1 rs2
  | .addi rd rs1 imm => .addi rd rs1 imm
  | .slti rd rs1 imm => .slti rd rs1 imm
  | .lw rd rs1 offset => .lw rd rs1 offset
  | .sw rs2 rs1 offset => .sw rs2 rs1 offset
  | .print rs => .print rs
  | .beq => .beq

end Sys2Proof
end

