-- ==== Sys2Proof/Decode.lean ====
section
/-!
DEFINITION. The decoders: from a source line to a decoded instruction (30_encoding.md R81 to R97,
the normative level) and from a canonical instruction word (R98 to R100, total), then the encoder
(R101).
-/

namespace Sys2Proof

/-! ### Character classes (30_encoding.md R104) -/

/-- The ten ASCII digits. -/
def isDigit (c : Char) : Bool := 48 ≤ c.toNat && c.toNat ≤ 57

/-- Space, tab, CR, VT, FF. -/
def isWhitespace (c : Char) : Bool :=
  c.toNat == 32 || c.toNat == 9 || c.toNat == 13 || c.toNat == 11 || c.toNat == 12

/-- The line separator LF. -/
def isLineFeed (c : Char) : Bool := c.toNat == 10

/-- The punctuation treated as whitespace: `,`, `(`, `)` (30_encoding.md R83). -/
def isPunctuation (c : Char) : Bool := c.toNat == 44 || c.toNat == 40 || c.toNat == 41

/-- Codes up to U+007F. -/
def isAscii (c : Char) : Bool := c.toNat ≤ 127

/-- `a` to `z` mapped to `A` to `Z`, every other character unchanged. -/
def upperChar (c : Char) : Char :=
  if 97 ≤ c.toNat && c.toNat ≤ 122 then Char.ofNat (c.toNat - 32) else c

/-- `upper(s)` (30_encoding.md R84). -/
def upper (s : Text) : Text := s.map upperChar

/-! ### Lines and tokens (30_encoding.md R82, R83) -/

/-- The pieces of a text between the characters that satisfy `p`, empty pieces included. -/
def piecesBetween (p : Char → Bool) : Text → List Text
  | [] => [[]]
  | c :: cs =>
    if p c then [] :: piecesBetween p cs
    else match piecesBetween p cs with
      | [] => [[c]]
      | t :: ts => (c :: t) :: ts

/-- The lines of a program text, in order (30_encoding.md R82, R104). -/
def lines (text : Text) : List Text := piecesBetween isLineFeed text

/-- Whitespace removed from both ends (30_encoding.md R82). -/
def trim (s : Text) : Text :=
  ((s.dropWhile isWhitespace).reverse.dropWhile isWhitespace).reverse

/-- A trimmed line is accepted unless it is empty or starts with `#` (30_encoding.md R82). -/
def isAccepted (trimmed : Text) : Bool :=
  !trimmed.isEmpty && (trimmed.head? != some '#')

/-- The accepted lines of a program text, trimmed, in order (30_encoding.md R82). -/
def acceptedLines (text : Text) : List Text := ((lines text).map trim).filter isAccepted

/-- `tokens(s)` (30_encoding.md R83): punctuation becomes a space, the result is split at runs of
whitespace, and empty pieces are dropped. -/
def tokens (s : Text) : List Text :=
  (piecesBetween isWhitespace (s.map fun c => if isPunctuation c then ' ' else c)).filter
    fun t => !t.isEmpty

/-- The mnemonic of a line: its first token, uppercased (30_encoding.md R84); `none` for a line
without a token (R103). -/
def lineMnemonic (s : Text) : Option Text := (tokens s).head?.map upper

/-! ### Operand tokens (30_encoding.md R86 to R91) -/

/-- The number a string of digits spells in base 10. -/
def digitsValue (ds : Text) : Nat := ds.foldl (fun n c => 10 * n + (c.toNat - 48)) 0

/-- `resolveRegister(t)` (30_encoding.md R87): the digits of the token, read in base 10; 0 when it
has none. -/
def resolveRegister (t : Text) : Nat := digitsValue (t.filter isDigit)

/-- What `parseImm` finds in a token (30_encoding.md R89). -/
inductive ImmToken where
  | value (v : Int)   -- case (a)
  | notInteger        -- case (b)
  | partlyNumeric     -- case (c)
  deriving DecidableEq, Repr

/-- A token without a sign: all digits, digits and then something else, or no leading digit. -/
def parseUnsigned (t : Text) : ImmToken :=
  if t.head?.any isDigit then
    if t.all isDigit then .value (digitsValue t) else .partlyNumeric
  else .notInteger

/-- `parseImm(t)` (30_encoding.md R89). -/
def parseImm : Text → ImmToken
  | [] => .notInteger
  | c :: rest =>
    if c = '-' then
      match parseUnsigned rest with
      | .value v => .value (-v)
      | .notInteger => .notInteger
      | .partlyNumeric => .partlyNumeric
    else if c = '+' then
      if rest.head?.any isDigit then .partlyNumeric else .notInteger
    else parseUnsigned (c :: rest)

/-- Why an operand could not be read: a fault of the instruction, or no meaning at all. -/
inductive OperandStop where
  | fault (cause : FaultCause)
  | refuse (r : DecodeRefusal)
  deriving DecidableEq, Repr

/-- The register operand in position `j` of the operand tokens (30_encoding.md R87, R88, R90). -/
def readReg (operands : List Text) (j : Nat) : Except OperandStop Reg :=
  match operands[j]? with
  | none => .error (.fault .missingOperand)
  | some t =>
    if h : resolveRegister t < 32 then .ok ⟨resolveRegister t, h⟩
    else .error (.refuse .registerOutOfRange)

/-- The integer operand in position `j` of the operand tokens (30_encoding.md R89, R90). -/
def readImm (operands : List Text) (j : Nat) : Except OperandStop Int :=
  match operands[j]? with
  | none => .error (.fault .missingOperand)
  | some t =>
    match parseImm t with
    | .value v => .ok v
    | .notInteger => .error (.fault .badImmediate)
    | .partlyNumeric => .error (.refuse .partlyNumericImmediate)

/-- Format R: `T[1]`, `T[2]`, `T[3]` are registers (30_encoding.md R86). -/
def formatR (mk : Reg → Reg → Reg → Instr) (operands : List Text) : Except OperandStop Instr :=
  match readReg operands 0 with
  | .error e => .error e
  | .ok a =>
    match readReg operands 1 with
    | .error e => .error e
    | .ok b =>
      match readReg operands 2 with
      | .error e => .error e
      | .ok c => .ok (mk a b c)

/-- Formats I, L, S: `T[1]`, `T[2]` are registers, `T[3]` is an integer (30_encoding.md R86). -/
def formatI (mk : Reg → Reg → Int → Instr) (operands : List Text) : Except OperandStop Instr :=
  match readReg operands 0 with
  | .error e => .error e
  | .ok a =>
    match readReg operands 1 with
    | .error e => .error e
    | .ok b =>
      match readImm operands 2 with
      | .error e => .error e
      | .ok v => .ok (mk a b v)

/-- Format P: `T[1]` is a register (30_encoding.md R86). -/
def formatP (mk : Reg → Instr) (operands : List Text) : Except OperandStop Instr :=
  match readReg operands 0 with
  | .error e => .error e
  | .ok a => .ok (mk a)

/-! ### The mnemonic map and the decoder of a line (30_encoding.md R92 to R94, R97) -/

/-- The mnemonic map: each recognised mnemonic with the reading of its operands, and the
branch-equal name, which reads none (30_encoding.md R86, R92, R94). -/
def mnemonicMap : List (Text × (List Text → Except OperandStop Instr)) :=
  [("ADD".toList, formatR .add), ("SUB".toList, formatR .sub), ("AND".toList, formatR .and),
    ("OR".toList, formatR .or), ("SLT".toList, formatR .slt), ("MULT".toList, formatR .mult),
    ("SLL".toList, formatR .sll), ("ADDI".toList, formatI .addi), ("SLTI".toList, formatI .slti),
    ("LW".toList, formatI .lw), ("SW".toList, formatI .sw), ("PRINT".toList, formatP .print),
    (Config.beqName, fun _ => .ok .beq)]

/-- The instruction of a mnemonic and its operand tokens; a mnemonic outside the map is an
`UNKNOWN` and its tokens are not read (30_encoding.md R93, R97). -/
def readOperands (m : Text) (operands : List Text) : Except OperandStop Instr :=
  match mnemonicMap.lookup m with
  | some read => read operands
  | none => .ok (.unknown (some m))

/-- An operand fault is the instruction `OPFAULT(cause)`; a refused operand refuses the line
(30_encoding.md R97). -/
def settleOperands : Except OperandStop Instr → Except DecodeRefusal Instr
  | .ok i => .ok i
  | .error (.fault cause) => .ok (.opfault cause)
  | .error (.refuse r) => .error r

/-- The decoder on a list of tokens `T[0], T[1], …` (30_encoding.md R97, R103). -/
def decodeTokens : List Text → Except DecodeRefusal Instr
  | [] => .error .lineWithoutToken
  | t :: operands => settleOperands (readOperands (upper t) operands)

/-- `decode(sourceText)` (30_encoding.md R97); a line with a non-ASCII character is refused (R104). -/
def decodeText (line : Text) : Except DecodeRefusal Instr :=
  if line.all isAscii then decodeTokens (tokens line) else .error .nonAsciiText

/-! ### The canonical instruction word (30_encoding.md R98 to R101) -/

/-- `W[6:0]`. -/
def fieldOp7 (w : Ciw) : BitVec 7 := w.extractLsb' 0 7
/-- `W[11:7]`. -/
def fieldA (w : Ciw) : Reg := (w.extractLsb' 7 5).toFin
/-- `W[16:12]`. -/
def fieldB (w : Ciw) : Reg := (w.extractLsb' 12 5).toFin
/-- `W[21:17]`. -/
def fieldC (w : Ciw) : Reg := (w.extractLsb' 17 5).toFin
/-- `sext_32(W[63:32])`. -/
def fieldImm (w : Ciw) : Int := (w.extractLsb' 32 32).toInt

/-- `decodeWord(W)`, total: an unassigned `op7` is `UNKNOWN`, unused fields are ignored, `OPFAULT`
reads back as `BadImmediate` (30_encoding.md R99, R100). -/
def decodeWord (w : Ciw) : Instr :=
  match (fieldOp7 w).toNat with
  | 0x01 => .add (fieldA w) (fieldB w) (fieldC w)
  | 0x02 => .sub (fieldA w) (fieldB w) (fieldC w)
  | 0x03 => .and (fieldA w) (fieldB w) (fieldC w)
  | 0x04 => .or (fieldA w) (fieldB w) (fieldC w)
  | 0x05 => .slt (fieldA w) (fieldB w) (fieldC w)
  | 0x06 => .mult (fieldA w) (fieldB w) (fieldC w)
  | 0x07 => .sll (fieldA w) (fieldB w) (fieldC w)
  | 0x08 => .addi (fieldA w) (fieldB w) (fieldImm w)
  | 0x09 => .slti (fieldA w) (fieldB w) (fieldImm w)
  | 0x0A => .lw (fieldA w) (fieldB w) (fieldImm w)
  | 0x0B => .sw (fieldA w) (fieldB w) (fieldImm w)
  | 0x0C => .print (fieldA w)
  | 0x0D => .beq
  | 0x7F => .opfault .badImmediate
  | _ => .unknown none

/-- A word from its fields, bits 31:22 zero (30_encoding.md R98). -/
def packWord (imm : Int) (c b a : Reg) (op7 : BitVec 7) : Ciw :=
  BitVec.ofInt 32 imm ++ 0#10 ++ BitVec.ofFin (w := 5) c ++ BitVec.ofFin (w := 5) b
    ++ BitVec.ofFin (w := 5) a ++ op7

/-- The bits `encode` writes: the row of 30_encoding.md R99, zeros in every field it does not use. -/
def encodeBits : Instr → Ciw
  | .add rd rs1 rs2 => packWord 0 rs2 rs1 rd 0x01#7
  | .sub rd rs1 rs2 => packWord 0 rs2 rs1 rd 0x02#7
  | .and rd rs1 rs2 => packWord 0 rs2 rs1 rd 0x03#7
  | .or rd rs1 rs2 => packWord 0 rs2 rs1 rd 0x04#7
  | .slt rd rs1 rs2 => packWord 0 rs2 rs1 rd 0x05#7
  | .mult rd rs1 rs2 => packWord 0 rs2 rs1 rd 0x06#7
  | .sll rd rs1 rs2 => packWord 0 rs2 rs1 rd 0x07#7
  | .addi rd rs1 imm => packWord imm 0 rs1 rd 0x08#7
  | .slti rd rs1 imm => packWord imm 0 rs1 rd 0x09#7
  | .lw rd rs1 offset => packWord offset 0 rs1 rd 0x0A#7
  | .sw rs2 rs1 offset => packWord offset 0 rs1 rs2 0x0B#7
  | .print rs => packWord 0 0 0 rs 0x0C#7
  | .beq => packWord 0 0 0 0 0x0D#7
  | .unknown _ => packWord 0 0 0 0 0x00#7
  | .opfault _ => packWord 0 0 0 0 0x7F#7

/-- `encode(d)`: defined exactly when every immediate is an `int32` (30_encoding.md R101). -/
def encode (i : Instr) : Option Ciw :=
  if i.hasWord then some (encodeBits i) else none

/-- The instruction the word decoder reads from a table word of `nbits` bits (all 64 of the table's
rows), the bits above `nbits` zero. One word fills one instruction slot (30_encoding.md R98). -/
def decodeTableWord (nbits w : Nat) : Option Instr :=
  some (decodeWord (BitVec.ofNat 64 (w % 2 ^ nbits)))

end Sys2Proof
end

