-- ==== Sys2Proof/Machine/State.lean ====
section
/-!
DEFINITION. The state of the block as plain data (10_state.md R20), the records it sends to its two
observers, the reasons a step can stop, and the state at power-on.
-/

namespace Sys2Proof.Machine

/-- The data memory `Mem`: the existing cells, a finite partial map from the integers to 32-bit
cells (10_state.md R33, 20_memory.md R51). An address that is not listed has no cell. The canonical
form is strictly rising addresses (`Memory.wf`, Machine/Ops.lean); a cell holding 0 is listed, because
it differs from an absent one. Cells, not bytes: log entry 2 (DEDUCED, safe). -/
abbrev Memory := List (Int × Word)

/-- What a record holds for its instruction: the trimmed source line (10_state.md R32), or at the
word level a canonical instruction word (30_encoding.md R102). Log entry 1 (DEDUCED, safe). -/
inductive Source where
  | text (sourceText : Text)
  | word (w : Ciw)
  deriving DecidableEq, Repr

/-- An Instruction record (10_state.md R32). The mnemonic is there at the text level only. -/
structure Record where
  address : Nat
  source : Source
  mnemonic : Option Text
  deriving DecidableEq, Repr

/-- The annotation of a trace event (46_host_interface.md R205); a value is a 32-bit pattern. -/
inductive Annotation where
  | none
  | load (value : Word) (addr : Int)
  | store (value : Word) (addr : Int)
  | print (value : Word)
  deriving DecidableEq, Repr

/-- An output event: to the trace sink the first three, to the memory view the last
(46_host_interface.md R205, R207). The source of a `trace` is that of the record at the pc, present
in every step (log entry 11: `none` only where `exec` is applied to a state with no record there). -/
inductive Event where
  | trace (pc : Nat) (source : Option Source) (ann : Annotation)
  | error (pc : Nat) (cause : FaultCause)
  | programEnd
  | memoryChanged (snapshot : Memory)
  deriving DecidableEq, Repr

/-- What a successful step returns (46_host_interface.md R203). -/
structure StepResult where
  bitPattern : Text
  deriving DecidableEq, Repr

/-- The state. The first five fields are the spec's, "five items and nothing else" (10_state.md
R20). The last three are the model's own: what the step has put out (log entry 4) and the counter of
free values (log entry 7). -/
structure State where
  /-- `x[0..31]` (10_state.md R21); read and written only through `State.x`, `State.writeReg` -/
  regs : Vector Word 32
  /-- the program counter, unbounded (10_state.md R26, R28) -/
  pc : Nat
  /-- the terminal flag (10_state.md R29) -/
  halted : Bool
  /-- the data memory (10_state.md R33) -/
  mem : Memory
  /-- the instruction list (10_state.md R31) -/
  prog : List Record
  /-- every event sent to the two observers, oldest first (46_host_interface.md R206) -/
  events : List Event
  /-- what the latest `step()` returned, `none` for `false` (40_fetch_decode_dispatch.md R130) -/
  result : Option StepResult
  /-- how many free values have been used -/
  freeIndex : Nat
  deriving DecidableEq, Repr

/-- Reasons a step stops with a fault. There are none: the two stop conditions of the block, the
fetch-miss and the execute-time fault, are described whole by the spec (60_exceptions.md R221, R222)
and are next states of this model, with `halted` set. Log entry 17 (DEDUCED, safe). -/
inductive Fault where
  deriving DecidableEq, Repr

/-- Reasons a command has no meaning. Every one of them is safe: nothing can be proved of the
refused run. -/
inductive Refusal where
  /-- raised by an arm of `exec` for an instruction that has no meaning yet (safe); no arm does -/
  | notModelled (mnemonic : String)
  /-- raised by a load, and by a step on a record that no load makes: the spec refuses the text
  (30_encoding.md R88, R89 (c), R103, R104) (safe) -/
  | undecodable (r : DecodeRefusal)
  /-- raised by `commandCycle` when the environment asserts both commands at once, which it must not
  do (70_reset_and_hazards.md R258) (safe) -/
  | simultaneousCommands
  deriving DecidableEq, Repr

/-- The state at power-on, before any load (10_state.md R38, 70_reset_and_hazards.md R250): registers 0, memory and
program empty, pc 0, halted. No event has been sent, no step has returned (log entries 4, 5, 7, 10). -/
def State.reset : State where
  regs := Vector.replicate 32 0
  pc := Config.pcBase
  halted := true
  mem := []
  prog := []
  events := []
  result := none
  freeIndex := 0

end Sys2Proof.Machine
end

