-- ==== Sys2Proof/Machine/Ops.lean ====
section
/-!
DEFINITION. The named operations over memory, registers, program store and observers, the
completion of an instruction, and the two ways the block stops.
-/

namespace Sys2Proof.Machine

/-! ### Data memory (20_memory.md R51 to R53) -/

/-- The canonical form: strictly rising addresses. -/
abbrev Memory.wf (m : Memory) : Prop := m.Pairwise fun p q => p.1 < q.1

/-- The cell at an address, or `none` when the address has no cell. -/
def memCell : Memory → Int → Option Word
  | [], _ => none
  | (b, v) :: m, a => if a = b then some v else memCell m a

/-- `MemRead(addr, 32)`: the cell, or 0 when it is absent; creates no cell (20_memory.md R52). -/
def memRead (m : Memory) (a : Int) : Word := (memCell m a).getD 0

/-- `MemWrite(addr, 32, v)`: creates or overwrites the cell at `addr` (20_memory.md R53). A write of
0 creates a cell holding 0. -/
def memWrite : Memory → Int → Word → Memory
  | [], a, v => [(a, v)]
  | (b, u) :: m, a, v =>
    if a < b then (a, v) :: (b, u) :: m
    else if a = b then (a, v) :: m
    else (b, u) :: memWrite m a v

/-! ### Registers (10_state.md R22 to R24) -/

/-- `wrap32(v)`: the 32-bit pattern of `v`, two's-complement truncation (00_scope.md R6). -/
def wrap32 (v : Int) : Word := BitVec.ofInt 32 v

/-- The pattern read from register `i`; register 0 reads as 0 (10_state.md R22, R24). -/
def State.regWord (s : State) (i : Reg) : Word := if i = 0 then 0 else s.regs[i]

/-- `x[i]`, the `int32` read from register `i` (10_state.md R24). -/
def State.x (s : State) (i : Reg) : Int := (s.regWord i).toInt

/-- `x[i] <- v`: stores `wrap32(v)`, or nothing when `i = 0` (10_state.md R22, R23). -/
def State.writeReg (s : State) (i : Reg) (v : Int) : State :=
  if i = 0 then s else { s with regs := s.regs.set i (wrap32 v) }

/-! ### The program store (40_fetch_decode_dispatch.md R122, 30_encoding.md R102) -/

/-- The record whose address equals the pc. -/
def State.fetch (s : State) : Option Record := s.prog.find? fun r => r.address == s.pc

/-- Decode a record's source. The stored mnemonic is not read: decode recomputes it (10_state.md
R32, 40_fetch_decode_dispatch.md R124). -/
def decodeSource : Source → Except DecodeRefusal Instr
  | .text t => decodeText t
  | .word w => .ok (decodeWord w)

/-- A program store with the word `w` as the record at address `a`, the others as they were. -/
def storeWord : List Record → Nat → Ciw → List Record
  | [], a, w => [⟨a, .word w, none⟩]
  | r :: p, a, w =>
    if a < r.address then ⟨a, .word w, none⟩ :: r :: p
    else if r.address = a then ⟨a, .word w, none⟩ :: p
    else r :: storeWord p a w

/-- The state with `w` as the instruction the next step fetches: at the pc, and running. -/
def State.placeWord (s : State) (w : Ciw) : State :=
  { s with prog := storeWord s.prog s.pc w, halted := false }

/-! ### Outputs (46_host_interface.md R205 to R209) -/

/-- `OPCODE7(m)`: the code of the table's entry for `m`, `"0000000"` when it has none (46_host_interface.md R209). -/
def opcode7 (m : Text) : Config.Code7 :=
  (((Config.beqName, Config.beqCode) :: Config.opcode7Rest).lookup m).getD Config.defaultCode

/-- The illustrative bit-pattern string with the code `code` (46_host_interface.md R208). -/
def bitPattern (code : Config.Code7) : Text := "??????? ????? ????? ??? ".toList ++ code.toList

/-- Send one event. -/
def State.emit (s : State) (e : Event) : State := { s with events := s.events ++ [e] }

/-! ### Completion and the ways to stop (40_fetch_decode_dispatch.md R121, R123, R126, R127) -/

/-- Successful completion with annotation `ann`: emit the trace event with the pc of the
instruction, advance the pc by 4, return a `StepResult` (40_fetch_decode_dispatch.md R126). -/
def State.complete (s : State) (code : Config.Code7) (ann : Annotation) : State :=
  { s.emit (.trace s.pc (s.fetch.map Record.source) ann) with
    pc := s.pc + Config.pcStep
    result := some ⟨bitPattern code⟩ }

/-- Use up one free value. -/
def State.useFree (s : State) : State := { s with freeIndex := s.freeIndex + 1 }

/-- `raise ExecFault(cause)`, the failure path: one error event with the pc of the faulting
instruction, `halted <- true`, the step returns `false`; pc, registers and memory unchanged
(40_fetch_decode_dispatch.md R127, R128; 60_exceptions.md R222, R228). There is no return from it
(60_exceptions.md R229). -/
def State.raiseExecFault (s : State) (cause : FaultCause) : State :=
  { s.emit (.error s.pc cause) with halted := true, result := none }

/-- Fetch-miss: one `End` event, `halted <- true`, the step returns `false`
(40_fetch_decode_dispatch.md R123, 60_exceptions.md R221). -/
def State.fetchMiss (s : State) : State :=
  { s.emit .programEnd with halted := true, result := none }

/-- A step on a halted machine: no effect, no event, the step returns `false`
(40_fetch_decode_dispatch.md R121). -/
def State.haltedStep (s : State) : State := { s with result := none }

/-! ### The step, over any meaning of the instructions (40_fetch_decode_dispatch.md R120) -/

/-- The single-cycle control: halted check, fetch, decode, then the instruction by `run`. -/
def stepWith (run : Instr → State → Host.Outcome State Fault Refusal) (s : State) :
    Host.Outcome State Fault Refusal :=
  if s.halted then .next s.haltedStep
  else match s.fetch with
    | none => .next s.fetchMiss
    | some rec =>
      match decodeSource rec.source with
      | .error r => .refused (.undecodable r)
      | .ok i => run i s

end Sys2Proof.Machine
end

