-- ==== Sys2Proof/Machine/Operands.lean ====
section
/-!
DEFINITION. The operand forms of the instructions and the exact results `f_OP` of the ALU
(41_reg_reg_alu.md R150, R158). Operands are `int32` read as integers; a result is an integer, which
the register write wraps.
-/

namespace Sys2Proof.Machine

/-- Format R: read both sources, then write `f` of them to `rd` (41_reg_reg_alu.md R150). -/
def State.regReg (s : State) (f : Int → Int → Int) (rd rs1 rs2 : Reg) : State :=
  s.writeReg rd (f (s.x rs1) (s.x rs2))

/-- Format I: read the source, then write `f` of it and the immediate to `rd` (42_reg_imm.md R170). -/
def State.regImm (s : State) (f : Int → Int → Int) (rd rs1 : Reg) (imm : Int) : State :=
  s.writeReg rd (f (s.x rs1) imm)

/-- The one addressing mode: `EA = x[rs1] + offset` in Z, not wrapped (43_load_store.md R180, 20_memory.md R66). -/
def State.effectiveAddress (s : State) (rs1 : Reg) (offset : Int) : Int := s.x rs1 + offset

/-- The bitwise operations act on the 32-bit patterns (00_scope.md R7; 41_reg_reg_alu.md R153, R154). -/
def bitwise (f : Word → Word → Word) (a b : Int) : Int := (f (wrap32 a) (wrap32 b)).toInt

/-- The shift amount: the non-negative residue modulo 32, the low five bits (41_reg_reg_alu.md R157, D10). -/
def shiftAmount (b : Int) : Nat := (b % 32).toNat

/-- `f_ADD` (41_reg_reg_alu.md R151). -/
def aluAdd (a b : Int) : Int := a + b
/-- `f_SUB` (41_reg_reg_alu.md R152). -/
def aluSub (a b : Int) : Int := a - b
/-- `f_AND` (41_reg_reg_alu.md R153). -/
def aluAnd : Int → Int → Int := bitwise (· &&& ·)
/-- `f_OR` (41_reg_reg_alu.md R154). -/
def aluOr : Int → Int → Int := bitwise (· ||| ·)
/-- `f_SLT` (41_reg_reg_alu.md R155). -/
def aluSlt : Int → Int → Int := lessThan
/-- `f_MULT`, the exact product (41_reg_reg_alu.md R156, D11). -/
def aluMult (a b : Int) : Int := a * b
/-- `f_SLL` (41_reg_reg_alu.md R157). -/
def aluSll (a b : Int) : Int := a * 2 ^ shiftAmount b

end Sys2Proof.Machine
end

