-- ==== Sys2Proof/Machine/LoadStore.lean ====
section
/-!
DEFINITION. Load and store (43_load_store.md). The address and every operand are read before the
register or the cell is written (70_reset_and_hazards.md R256).
-/

namespace Sys2Proof.Machine

/-- A store: write the cell, then notify the memory view with the whole memory, ascending by
address (43_load_store.md R182, 46_host_interface.md R207). -/
def State.store (s : State) (a : Int) (v : Word) : State :=
  State.emit { s with mem := memWrite s.mem a v } (.memoryChanged (memWrite s.mem a v))

/-- `LW rd, rs1, offset` (43_load_store.md R181). -/
def execLw (rd rs1 : Reg) (offset : Int) (s : State) : Host.Outcome State Fault Refusal :=
  let a := s.effectiveAddress rs1 offset
  let v := memRead s.mem a
  .next ((s.writeReg rd v.toInt).complete (opcode7 "LW".toList) (.load v a))

/-- `SW rs2, rs1, offset` (43_load_store.md R182). -/
def execSw (rs2 rs1 : Reg) (offset : Int) (s : State) : Host.Outcome State Fault Refusal :=
  let v := s.regWord rs2
  let a := s.effectiveAddress rs1 offset
  .next ((s.store a v).complete (opcode7 "SW".toList) (.store v a))

end Sys2Proof.Machine
end

