-- ==== Sys2Proof/Machine/Output.lean ====
section
/-!
DEFINITION. Output, the unrecognised mnemonics and the failure path (44_output_and_unknown.md).
-/

namespace Sys2Proof.Machine

/-- `PRINT rs`: the value of `rs` goes out in the annotation (44_output_and_unknown.md R190). -/
def execPrint (rs : Reg) (s : State) : Host.Outcome State Fault Refusal :=
  .next (s.complete (opcode7 "PRINT".toList) (.print (s.regWord rs)))

/-- The branch-equal name: a no-op (44_output_and_unknown.md R192). -/
def execBeq (s : State) : Host.Outcome State Fault Refusal :=
  .next (s.complete (opcode7 Config.beqName) .none)

/-- `UNKNOWN(m)`: a no-op (44_output_and_unknown.md R191). Where the word did not keep the mnemonic,
the display code is a free value (log entry 7). -/
def execUnknown (m : Option Text) (s : State) : Host.Outcome State Fault Refusal :=
  match m with
  | some m => .next (s.complete (opcode7 m) .none)
  | none => .next (s.complete (Config.lostCode s.freeIndex) .none).useFree

/-- `OPFAULT(cause)`: the failure path and nothing else (44_output_and_unknown.md R193). -/
def execOpfault (cause : FaultCause) (s : State) : Host.Outcome State Fault Refusal :=
  .next (s.raiseExecFault cause)

end Sys2Proof.Machine
end

