-- ==== Sys2Proof/Machine/RegImm.lean ====
section
/-!
DEFINITION. Register-immediate instructions (42_reg_imm.md). The immediate is an exact integer and
is not wrapped before it is used (R170, R172).
-/

namespace Sys2Proof.Machine

/-- `ADDI rd, rs1, imm` (42_reg_imm.md R171). -/
def execAddi (rd rs1 : Reg) (imm : Int) (s : State) : Host.Outcome State Fault Refusal :=
  .next ((s.regImm aluAdd rd rs1 imm).complete (opcode7 "ADDI".toList) .none)

/-- `SLTI rd, rs1, imm` (42_reg_imm.md R172). -/
def execSlti (rd rs1 : Reg) (imm : Int) (s : State) : Host.Outcome State Fault Refusal :=
  .next ((s.regImm aluSlt rd rs1 imm).complete (opcode7 "SLTI".toList) .none)

end Sys2Proof.Machine
end

