-- ==== Sys2Proof/Machine/RegReg.lean ====
section
/-!
DEFINITION. Register-register arithmetic and logic (41_reg_reg_alu.md). Each instruction computes its
result, writes it to `rd`, and completes with no annotation (R150).
-/

namespace Sys2Proof.Machine

/-- `ADD rd, rs1, rs2` (41_reg_reg_alu.md R151). -/
def execAdd (rd rs1 rs2 : Reg) (s : State) : Host.Outcome State Fault Refusal :=
  .next ((s.regReg aluAdd rd rs1 rs2).complete (opcode7 "ADD".toList) .none)

/-- `SUB rd, rs1, rs2` (41_reg_reg_alu.md R152). -/
def execSub (rd rs1 rs2 : Reg) (s : State) : Host.Outcome State Fault Refusal :=
  .next ((s.regReg aluSub rd rs1 rs2).complete (opcode7 "SUB".toList) .none)

/-- `AND rd, rs1, rs2` (41_reg_reg_alu.md R153). -/
def execAnd (rd rs1 rs2 : Reg) (s : State) : Host.Outcome State Fault Refusal :=
  .next ((s.regReg aluAnd rd rs1 rs2).complete (opcode7 "AND".toList) .none)

/-- `OR rd, rs1, rs2` (41_reg_reg_alu.md R154). -/
def execOr (rd rs1 rs2 : Reg) (s : State) : Host.Outcome State Fault Refusal :=
  .next ((s.regReg aluOr rd rs1 rs2).complete (opcode7 "OR".toList) .none)

/-- `SLT rd, rs1, rs2` (41_reg_reg_alu.md R155). -/
def execSlt (rd rs1 rs2 : Reg) (s : State) : Host.Outcome State Fault Refusal :=
  .next ((s.regReg aluSlt rd rs1 rs2).complete (opcode7 "SLT".toList) .none)

/-- `MULT rd, rs1, rs2` (41_reg_reg_alu.md R156). -/
def execMult (rd rs1 rs2 : Reg) (s : State) : Host.Outcome State Fault Refusal :=
  .next ((s.regReg aluMult rd rs1 rs2).complete (opcode7 "MULT".toList) .none)

/-- `SLL rd, rs1, rs2` (41_reg_reg_alu.md R157). -/
def execSll (rd rs1 rs2 : Reg) (s : State) : Host.Outcome State Fault Refusal :=
  .next ((s.regReg aluSll rd rs1 rs2).complete (opcode7 "SLL".toList) .none)

end Sys2Proof.Machine
end

