-- ==== Sys2Proof/Machine/Dispatch.lean ====
section
/-!
DEFINITION. Dispatch, exhaustive and exclusive (40_fetch_decode_dispatch.md R125): one arm per
constructor, each one call of its meaning.
-/

namespace Sys2Proof.Machine

def exec (i : Instr) (s : State) : Host.Outcome State Fault Refusal :=
  match i with
  | .add rd rs1 rs2 => Sys2Proof.Machine.execAdd rd rs1 rs2 s
  | .sub rd rs1 rs2 => Sys2Proof.Machine.execSub rd rs1 rs2 s
  | .and rd rs1 rs2 => Sys2Proof.Machine.execAnd rd rs1 rs2 s
  | .or rd rs1 rs2 => Sys2Proof.Machine.execOr rd rs1 rs2 s
  | .slt rd rs1 rs2 => Sys2Proof.Machine.execSlt rd rs1 rs2 s
  | .mult rd rs1 rs2 => Sys2Proof.Machine.execMult rd rs1 rs2 s
  | .sll rd rs1 rs2 => Sys2Proof.Machine.execSll rd rs1 rs2 s
  | .addi rd rs1 imm => Sys2Proof.Machine.execAddi rd rs1 imm s
  | .slti rd rs1 imm => Sys2Proof.Machine.execSlti rd rs1 imm s
  | .lw rd rs1 offset => Sys2Proof.Machine.execLw rd rs1 offset s
  | .sw rs2 rs1 offset => Sys2Proof.Machine.execSw rs2 rs1 offset s
  | .print rs => Sys2Proof.Machine.execPrint rs s
  | .beq => Sys2Proof.Machine.execBeq s
  | .unknown m => Sys2Proof.Machine.execUnknown m s
  | .opfault cause => Sys2Proof.Machine.execOpfault cause s

end Sys2Proof.Machine
end

