-- ==== Sys2Proof/Machine/Step.lean ====
section
/-!
DEFINITION. One `step()` (40_fetch_decode_dispatch.md R120), and the placing of a word where the
next step fetches.
-/

namespace Sys2Proof.Machine

/-- One step: `stepWith` (Machine/Ops.lean) over `exec`. -/
def step (s : State) : Host.Outcome State Fault Refusal := stepWith exec s

/-- `s` with the instruction of table word `w` in the program store at the pc, and running; it
stands for a load of that word (log entry 10). -/
def State.withFetchWord (s : State) (nbits w : Nat) : State :=
  s.placeWord (BitVec.ofNat 64 (w % 2 ^ nbits))

end Sys2Proof.Machine
end

