-- ==== Sys2Proof/Machine/Load.lean ====
section
/-!
DEFINITION. `loadProgram`, the block's only reset (70_reset_and_hazards.md R251), at the text level
and at the word level (46_host_interface.md R201).
-/

namespace Sys2Proof.Machine

/-- The record of a source at an address: at the text level it also holds the mnemonic
(10_state.md R32). -/
def makeRecord (a : Nat) (src : Source) : Record :=
  match src with
  | .text t => ⟨a, .text t, lineMnemonic t⟩
  | .word w => ⟨a, .word w, none⟩

/-- Records at consecutive instruction addresses from `a` on (30_encoding.md R85). -/
def numberFrom (a : Nat) : List Source → List Record
  | [] => []
  | src :: rest => makeRecord a src :: numberFrom (a + Config.pcStep) rest

/-- The state after a load of `prog` (10_state.md R38): fresh defaults, halted exactly when there is
no instruction. A load sends no event and returns nothing (46_host_interface.md R201); the observers
keep what they have received (log entry 13). -/
def State.loaded (s : State) (prog : List Record) : State :=
  { State.reset with
    prog := prog
    halted := prog.isEmpty
    events := s.events
    freeIndex := s.freeIndex }

/-- The first line of a program that decode refuses. -/
def firstRefusal : List Text → Option DecodeRefusal
  | [] => none
  | line :: rest =>
    match decodeText line with
    | .error r => some r
    | .ok _ => firstRefusal rest

/-- `loadProgram(text)` (70_reset_and_hazards.md R251). A text with a non-ASCII character, or with a
line that decode refuses, has no meaning, whether or not the line is reached (30_encoding.md R88,
R89, R103, R104). -/
def loadProgram (text : Text) (s : State) : Host.Outcome State Fault Refusal :=
  if text.all isAscii then
    match firstRefusal (acceptedLines text) with
    | some r => .refused (.undecodable r)
    | none => .next (s.loaded (numberFrom Config.pcBase ((acceptedLines text).map .text)))
  else .refused (.undecodable .nonAsciiText)

/-- The load of a list of canonical instruction words: word `i` at address `4i` (30_encoding.md R102, 46_host_interface.md R201). -/
def loadWords (ws : List Ciw) (s : State) : State :=
  s.loaded (numberFrom Config.pcBase (ws.map .word))

/-- The words of a text's accepted lines, where each of them has a word image (30_encoding.md R101). -/
def imageOf : List Text → Option (List Ciw)
  | [] => some []
  | line :: rest =>
    match decodeText line with
    | .error _ => none
    | .ok i =>
      match encode i, imageOf rest with
      | some w, some ws => some (w :: ws)
      | _, _ => none

end Sys2Proof.Machine
end

