-- ==== Sys2Proof/Machine/Interface.lean ====
section
/-!
DEFINITION. The ports of the block (46_host_interface.md R200): the two commands, the read-only
accessors, and the environment's run driver (R211), which is outside the block.
-/

namespace Sys2Proof.Machine

/-! ### State accessors (46_host_interface.md R204) -/

/-- The pc. -/
def programCounter (s : State) : Nat := s.pc
/-- The `halted` flag. -/
def isHalted (s : State) : Bool := s.halted
/-- The value of a register. -/
def readRegister (s : State) (i : Reg) : Int := s.x i
/-- The existing cells with their values, ascending by address. -/
def memoryContents (s : State) : List (Int × Int) := s.mem.map fun p => (p.1, p.2.toInt)

/-! ### The two commands at one cycle boundary (46_host_interface.md R200, 70_reset_and_hazards.md R258) -/

/-- What the environment loads: a text, or at the word level a list of words (46_host_interface.md R201). -/
inductive LoadInput where
  | text (t : Text)
  | words (ws : List Ciw)
  deriving DecidableEq, Repr

/-- One load. -/
def load (input : LoadInput) (s : State) : Host.Outcome State Fault Refusal :=
  match input with
  | .text t => loadProgram t s
  | .words ws => .next (loadWords ws s)

/-- One cycle: at most one of the two command inputs is asserted; with both, the spec gives no order and the environment
must not do so. With neither, nothing happens. -/
def commandCycle (loadInput : Option LoadInput) (stepInput : Bool) (s : State) :
    Host.Outcome State Fault Refusal :=
  match loadInput, stepInput with
  | none, false => .next s
  | none, true => step s
  | some input, false => load input s
  | some _, true => .refused .simultaneousCommands

/-! ### The environment's driver (46_host_interface.md R211) -/

/-- Repeat `step` at most `fuel` times, stopping at the first `false`. -/
def driveFor : Nat → State → Host.Outcome State Fault Refusal
  | 0, s => .next s
  | fuel + 1, s =>
    match step s with
    | .next t => if t.result.isSome then driveFor fuel t else .next t
    | .fault f => .fault f
    | .refused r => .refused r

/-- Run mode: stop at the first `false`, at the ceiling `RUN_CEILING` (a parameter of the driver,
D19), or when stopped from outside after `stopAfter` iterations, whichever comes first. Each call is one
run and starts its count anew, with the whole ceiling before it: the spec does not give whether the
count restarts (91_not_in_source.md N22). Log entry 19 (DESIGN CHOICE, unsafe). -/
def runDriver (ceiling : Nat) (stopAfter : Option Nat) (s : State) :
    Host.Outcome State Fault Refusal :=
  driveFor (min ceiling (stopAfter.getD ceiling)) s

end Sys2Proof.Machine
end

