-- ==== Sys2Proof/Safety.lean ====
section
/-!
DEFINITION. The terms the statements use: the spec's number predicates, what a step leaves alone,
the invariant of a loaded machine, and when a word-level machine is the image of a text-level one.
-/

namespace Sys2Proof.Machine

/-! ### Numbers (00_scope.md R6) -/

/-- `w = wrap32(v)`: `w` is the one `int32` with `w - v` a multiple of 2 to the 32. Written from the
spec's words, not from `wrap32`. -/
def IsWrap32 (w v : Int) : Prop := InInt32 w ∧ (4294967296 : Int) ∣ w - v

/-- Every word the encoder writes for `i` has the operation code `op7`, and it writes one exactly when the
immediate of `i` is an `int32`. -/
def EncodedWith (i : Instr) (op7 : Nat) : Prop :=
  (∀ w, encode i = some w → w.toNat % 128 = op7)
    ∧ ((∀ v, i.immediate? = some v → InInt32 v) ↔ (encode i).isSome)

/-! ### Frames -/

/-- Every register but `rd` reads as before, register 0 reads 0, and every cell is as before. -/
def OnlyWrites (rd : Reg) (s t : State) : Prop :=
  t.x 0 = 0 ∧ (∀ r, r ≠ rd → t.x r = s.x r) ∧ ∀ a, memCell t.mem a = memCell s.mem a

/-- Every register reads as before. -/
def SameRegisters (s t : State) : Prop := ∀ r, t.x r = s.x r

/-- Every cell is as before, absent cells included. -/
def SameMemory (s t : State) : Prop := ∀ a, memCell t.mem a = memCell s.mem a

/-- A successful completion with annotation `ann` after the events `before`: the pc is 4 further, `halted` and
the program are as before, the trace event comes last, and a `StepResult` is returned
(40_fetch_decode_dispatch.md R126). -/
def Completed (before : List Event) (ann : Annotation) (s t : State) : Prop :=
  t.pc = s.pc + 4 ∧ t.halted = s.halted ∧ t.prog = s.prog
    ∧ t.events = s.events ++ before ++ [.trace s.pc (s.fetch.map Record.source) ann]
    ∧ t.result.isSome

/-- The display string returned carries the code of the mnemonic `m`: the table's entry for `m`
where it has one, else `"0000000"` (46_host_interface.md R208, R209). -/
def ShowsCodeOf (m : Text) (t : State) : Prop :=
  ∃ code : Config.Code7,
    t.result = some ⟨"??????? ????? ????? ??? ".toList ++ code.toList⟩
      ∧ (m = "BEQ".toList → code = Config.beqCode)
      ∧ (m ≠ "BEQ".toList → ∀ c, Config.opcode7Rest.lookup m = some c → code = c)
      ∧ (m ≠ "BEQ".toList → Config.opcode7Rest.lookup m = none → code.toList = "0000000".toList)

/-- The mnemonic of an instruction as its line spells it, uppercased (30_encoding.md R92); none where the word has not kept
it, and none for an `OPFAULT`, which returns no string. -/
def displayName : Instr → Option Text
  | .add _ _ _ => some "ADD".toList
  | .sub _ _ _ => some "SUB".toList
  | .and _ _ _ => some "AND".toList
  | .or _ _ _ => some "OR".toList
  | .slt _ _ _ => some "SLT".toList
  | .mult _ _ _ => some "MULT".toList
  | .sll _ _ _ => some "SLL".toList
  | .addi _ _ _ => some "ADDI".toList
  | .slti _ _ _ => some "SLTI".toList
  | .lw _ _ _ => some "LW".toList
  | .sw _ _ _ => some "SW".toList
  | .print _ => some "PRINT".toList
  | .beq => some "BEQ".toList
  | .unknown m => m
  | .opfault _ => none

/-- The five items of 10_state.md R20 agree. -/
def SameArchitecture (s t : State) : Prop :=
  s.regs = t.regs ∧ s.pc = t.pc ∧ s.halted = t.halted ∧ s.mem = t.mem ∧ s.prog = t.prog

/-! ### Events -/

/-- The event goes to the trace sink (46_host_interface.md R205), not to the memory view. -/
def Event.toSink : Event → Bool
  | .trace _ _ _ | .error _ _ | .programEnd => true
  | .memoryChanged _ => false

/-- How many events the trace sink has received. -/
def State.sinkCount (s : State) : Nat := s.events.countP Event.toSink

/-! ### The invariant of a loaded machine -/

/-- The record decodes to an `OPFAULT`. -/
def Record.faults (r : Record) : Prop := ∃ cause, decodeSource r.source = .ok (.opfault cause)

/-- What holds of the machine from power-on and from every load on (10_state.md R22, R28, R30, R32,
R38; 20_memory.md R51; 60_exceptions.md R224, R228). -/
structure Inv (s : State) : Prop where
  /-- the memory is in canonical form -/
  memWf : s.mem.wf
  /-- the slot of register 0 holds 0 -/
  zeroSlot : s.regs[0] = 0
  /-- record `k` has the address `4k` -/
  addresses : ∀ k (h : k < s.prog.length), s.prog[k].address = 4 * k
  /-- every record decodes, and its stored mnemonic is the one its source gives -/
  decodes : ∀ r ∈ s.prog, (∃ i, decodeSource r.source = .ok i) ∧ r = makeRecord r.address r.source
  /-- the pc is `4k` for some `k` from 0 to `N` -/
  pcRange : ∃ k, k ≤ s.prog.length ∧ s.pc = 4 * k
  /-- no record before the pc faults -/
  passed : ∀ k (h : k < s.prog.length), 4 * k < s.pc → ¬ s.prog[k].faults
  /-- a machine with no program is halted -/
  emptyHalted : s.prog = [] → s.halted = true
  /-- a machine halts at the end of the program or at a faulting record -/
  haltedAt : s.halted = true →
    s.pc = 4 * s.prog.length ∨ ∃ r, s.fetch = some r ∧ r.faults
  /-- a halted machine's latest step returned `false` -/
  haltedResult : s.halted = true → s.result = none

/-! ### Text level and word level (30_encoding.md R101) -/

/-- The word-level machine `t` is the image of the text-level machine `s`: registers, pc, flag and
memory agree, and record by record the word gives what a word keeps of the line's instruction. -/
structure IsImage (s t : State) : Prop where
  regs : s.regs = t.regs
  pc : s.pc = t.pc
  halted : s.halted = t.halted
  mem : s.mem = t.mem
  done : s.result.isSome = t.result.isSome
  sink : s.sinkCount = t.sinkCount
  prog : List.Forall₂ (fun r q => r.address = q.address
    ∧ ∃ i, decodeSource r.source = .ok i ∧ decodeSource q.source = .ok i.kept) s.prog t.prog

end Sys2Proof.Machine
end

