-- ==== Sys2Proof/Certificates/Slice0/Obligations.lean ====
section
/-!
DEFINITION. The statements for the provers, in the order of the spec's files. Each docstring names
the rule it formalises. The `op7` codes in the statements are those of the rules, which the spec
chooses itself (92_eei_decisions.md D3).
-/

open Sys2Proof Sys2Proof.Machine

/-! ### Word level: 30_encoding.md R98 to R101 -/

/-- The words of 95_test_vectors.md V6 and of its single encodings, one for every kind of
instruction, decode to what the spec says (R98, R99, R100). A sanity statement on fixed words. -/
def Obligations.SampleWordsDecodeAsListed : Prop :=
  decodeWord 0x0000000000041181#64 = .add 3 1 2
    ∧ decodeWord 0x0000000000022202#64 = .sub 4 2 1
    ∧ decodeWord 0x0000000000128503#64 = .and 10 8 9
    ∧ decodeWord 0x0000000000128584#64 = .or 11 8 9
    ∧ decodeWord 0x0000000000022305#64 = .slt 6 2 1
    ∧ decodeWord 0x000000000004E806#64 = .mult 16 14 2
    ∧ decodeWord 0xFFFFFFFF003FFF87#64 = .sll 31 31 31
    ∧ decodeWord 0x00000005FFC00088#64 = .addi 1 0 5
    ∧ decodeWord 0x0000000000002389#64 = .slti 7 2 0
    ∧ decodeWord 0x8000000000F8F88A#64 = .lw 17 15 (-2147483648)
    ∧ decodeWord 0xFFFFFFFC0000110B#64 = .sw 2 1 (-4)
    ∧ decodeWord 0x00000000003E0F8C#64 = .print 31
    ∧ decodeWord 0x000000000004118D#64 = .beq
    ∧ decodeWord 0x123456780000000E#64 = .unknown none
    ∧ decodeWord 0xFFFFFFFFFFFFFFFF#64 = .opfault .badImmediate

/-- Decode after encode gives the instruction back, with every operand at every value, but for the
mnemonic of an `UNKNOWN` and the cause of an `OPFAULT`, which a word does not keep (R100, R101). -/
def Obligations.DecodeOfEncodeKeepsTheInstruction : Prop :=
  ∀ (i : Instr) (w : Ciw), encode i = some w → decodeWord w = i.kept

/-- Every one of the 2^64 words decodes to an instruction that has a word image, and that image
decodes to the same instruction, with bits 31:22 zero (R98, R100, R101). -/
def Obligations.EveryWordHasACanonicalWord : Prop :=
  ∀ w : Ciw, ∃ w' : Ciw, encode (decodeWord w) = some w' ∧ decodeWord w' = decodeWord w
    ∧ w'.extractLsb' 22 10 = 0#10

/-- Bits 31:22 and the fields a row does not use are ignored on decode: two words decode alike as soon as
they agree on `op7` and on the fields of its row; and an unassigned `op7` (0x00, 0x0E to 0x7E) is
`UNKNOWN` (R99, R100; the spec's own decisions D3, D4). -/
def Obligations.WordDecodeIsLenient : Prop :=
  (∀ w : Ciw, (w.toNat % 128 = 0 ∨ (14 ≤ w.toNat % 128 ∧ w.toNat % 128 ≤ 126)) →
    decodeWord w = .unknown none)
  ∧ ∀ w w' : Ciw, w.extractLsb' 0 7 = w'.extractLsb' 0 7 →
    ((w.extractLsb' 0 7).toNat ≤ 12 → w.extractLsb' 7 5 = w'.extractLsb' 7 5) →
    ((w.extractLsb' 0 7).toNat ≤ 11 → w.extractLsb' 12 5 = w'.extractLsb' 12 5) →
    ((w.extractLsb' 0 7).toNat ≤ 7 → w.extractLsb' 17 5 = w'.extractLsb' 17 5) →
    (8 ≤ (w.extractLsb' 0 7).toNat → (w.extractLsb' 0 7).toNat ≤ 11 →
      w.extractLsb' 32 32 = w'.extractLsb' 32 32) →
    decodeWord w = decodeWord w'

/-- Where it is defined, the decoded word executes as the instruction does: same state, same events
and same return value, but for what the word does not keep, the display code of an `UNKNOWN` and
the cause an `OPFAULT` reports (R101, marked as the spec's own derivation; the word is the spec's own, D2 to D4). -/
def Obligations.EncodedInstructionRunsAlike : Prop :=
  ∀ (i : Instr) (w : Ciw) (s t : State), encode i = some w → exec i s = .next t →
    ∃ u, exec (decodeWord w) s = .next u ∧ SameArchitecture t u
      ∧ t.result.isSome = u.result.isSome
      ∧ ((∀ m, i ≠ .unknown m) → t.result = u.result)
      ∧ ((∀ cause, i ≠ .opfault cause) → t.events = u.events)
      ∧ (∀ cause, i = .opfault cause → t.events = s.events ++ [.error s.pc cause]
          ∧ u.events = s.events ++ [.error s.pc .badImmediate])

/-! ### Text level: 30_encoding.md R82 to R97 -/

/-- `resolveRegister` keeps the digits of a token, in order, and reads them in base 10; no digit
gives 0 (R87; base 10 is the spec's own decision D23). -/
def Obligations.RegisterTokenReadsItsDigits : Prop :=
  (∀ t : Text, (∀ c ∈ t, ¬ ('0' ≤ c ∧ c ≤ '9')) → resolveRegister t = 0)
    ∧ (∀ (t : Text) (c : Char), ¬ ('0' ≤ c ∧ c ≤ '9') → resolveRegister (t ++ [c]) = resolveRegister t)
    ∧ ∀ (t : Text) (c : Char), '0' ≤ c → c ≤ '9' →
        resolveRegister (t ++ [c]) = 10 * resolveRegister t + (c.toNat - '0'.toNat)

/-- The three cases of `parseImm`: an optional minus sign and digits only; no integer in front; an
integer and more, or a plus sign and a digit (R89; the grammar is the spec's own decision D6). -/
def Obligations.ImmediateTokenHasThreeCases : Prop :=
  (∀ ds : Text, ds ≠ [] → (∀ c ∈ ds, '0' ≤ c ∧ c ≤ '9') →
      parseImm ds = .value (resolveRegister ds) ∧ parseImm ('-' :: ds) = .value (-(resolveRegister ds)))
    ∧ (parseImm [] = .notInteger ∧ parseImm ['-'] = .notInteger ∧ parseImm ['+'] = .notInteger)
    ∧ (∀ (c : Char) (t : Text), ¬ ('0' ≤ c ∧ c ≤ '9') →
        (c ≠ '-' → c ≠ '+' → parseImm (c :: t) = .notInteger)
          ∧ parseImm ('-' :: c :: t) = .notInteger ∧ parseImm ('+' :: c :: t) = .notInteger)
    ∧ (∀ (d : Char) (t : Text), '0' ≤ d → d ≤ '9' →
        parseImm ('+' :: d :: t) = .partlyNumeric
          ∧ ((∃ c ∈ t, ¬ ('0' ≤ c ∧ c ≤ '9')) →
              parseImm (d :: t) = .partlyNumeric ∧ parseImm ('-' :: d :: t) = .partlyNumeric))

/-- The operand tokens are read by position, as the format of the mnemonic says, and tokens after
the last one read are ignored (R86, R91; the latter is the spec's own decision D8). -/
def Obligations.OperandsAreReadByPosition : Prop :=
  (∀ p ∈ [("ADD", Instr.add), ("SUB", Instr.sub), ("AND", Instr.and), ("OR", Instr.or),
        ("SLT", Instr.slt), ("MULT", Instr.mult), ("SLL", Instr.sll)],
      ∀ (m t₁ t₂ t₃ : Text) (rest : List Text) (a b c : Reg), upper m = p.1.toList →
        resolveRegister t₁ = a.val → resolveRegister t₂ = b.val → resolveRegister t₃ = c.val →
        decodeTokens (m :: t₁ :: t₂ :: t₃ :: rest) = .ok (p.2 a b c))
    ∧ (∀ p ∈ [("ADDI", Instr.addi), ("SLTI", Instr.slti), ("LW", Instr.lw), ("SW", Instr.sw)],
      ∀ (m t₁ t₂ t₃ : Text) (rest : List Text) (a b : Reg), upper m = p.1.toList →
        resolveRegister t₁ = a.val → resolveRegister t₂ = b.val →
        (∀ v, parseImm t₃ = .value v → decodeTokens (m :: t₁ :: t₂ :: t₃ :: rest) = .ok (p.2 a b v))
          ∧ (parseImm t₃ = .notInteger →
              decodeTokens (m :: t₁ :: t₂ :: t₃ :: rest) = .ok (.opfault .badImmediate))
          ∧ (parseImm t₃ = .partlyNumeric →
              decodeTokens (m :: t₁ :: t₂ :: t₃ :: rest) = .error .partlyNumericImmediate))
    ∧ ∀ (m t₁ : Text) (rest : List Text) (a : Reg), upper m = "PRINT".toList →
        resolveRegister t₁ = a.val → decodeTokens (m :: t₁ :: rest) = .ok (.print a)

/-- A line with too few operand tokens for its format is an `OPFAULT(MissingOperand)`, provided the
register tokens it has are in range (R90; the spec's own decision D7). -/
def Obligations.MissingOperandIsAFault : Prop :=
  (∀ (m : Text) (operands : List Text), upper m ∈ recognisedMnemonics → upper m ≠ "PRINT".toList →
      operands.length < 3 → (∀ t ∈ operands, resolveRegister t < 32) →
      decodeTokens (m :: operands) = .ok (.opfault .missingOperand))
    ∧ ∀ m : Text, upper m = "PRINT".toList → decodeTokens [m] = .ok (.opfault .missingOperand)

/-- A register operand that the format reads and that resolves to 32 or more is refused: the first
token of every format, the second of every format but P, the third of format R (R88; the spec's own
decision D5). -/
def Obligations.RegisterIndexAbove31IsRefused : Prop :=
  ∀ (m : Text) (operands : List Text) (j : Nat) (t : Text), upper m ∈ recognisedMnemonics →
    operands[j]? = some t → 32 ≤ resolveRegister t →
    (j = 0 ∨ (j = 1 ∧ upper m ≠ "PRINT".toList)
      ∨ (j = 2 ∧ upper m ∈ ["ADD", "SUB", "AND", "OR", "SLT", "MULT", "SLL"].map String.toList)) →
    decodeTokens (m :: operands) = .error .registerOutOfRange

/-- A mnemonic outside the twelve reads no operand: whatever follows it, the line is a no-op
instruction (R93, R94). -/
def Obligations.UnrecognisedMnemonicReadsNoOperand : Prop :=
  ∀ (m : Text) (operands : List Text), upper m ∉ recognisedMnemonics →
    decodeTokens (m :: operands)
      = .ok (if upper m = "BEQ".toList then .beq else .unknown (some (upper m)))

/-- Commas, parentheses and the whitespace characters separate alike: exchanging one for another
changes no token, and a token is never empty and holds none of them. Reading from the left, a
separator is dropped and each stretch without one is a token, the last stretch too; no piece of a
line is lost (R83; the whitespace set is the spec's own decision D17). An ASCII line decodes as its
tokens do, any other line is refused (R97, R104, D17), and so is a line without a token (R103, D9). The
mnemonic is the first token in upper case, so its letters' case does not matter (R84). -/
def Obligations.SeparatorsAndCaseAreLoose : Prop :=
  let separators : List Char := [' ', '\t', '\r', Char.ofNat 11, Char.ofNat 12, ',', '(', ')']
  (∀ s s' : Text, List.Forall₂ (fun c d => c = d ∨ (c ∈ separators ∧ d ∈ separators)) s s' →
      tokens s = tokens s')
    ∧ (∀ (s : Text), ∀ t ∈ tokens s, t ≠ [] ∧ ∀ c ∈ t, c ∉ separators ∧ c ∈ s)
    ∧ tokens [] = []
    ∧ (∀ sep ∈ separators, ∀ rest : Text, tokens (sep :: rest) = tokens rest)
    ∧ (∀ w : Text, w ≠ [] → (∀ c ∈ w, c ∉ separators) → tokens w = [w]
        ∧ ∀ sep ∈ separators, ∀ rest : Text, tokens (w ++ sep :: rest) = w :: tokens rest)
    ∧ (∀ s : Text, ((∀ c ∈ s, c.toNat < 128) → decodeText s = decodeTokens (tokens s))
        ∧ ((∃ c ∈ s, 128 ≤ c.toNat) → decodeText s = .error .nonAsciiText))
    ∧ decodeTokens [] = .error .lineWithoutToken
    ∧ ∀ (m : Text) (operands : List Text),
        decodeTokens (upper m :: operands) = decodeTokens (m :: operands)

/-! ### Load: 30_encoding.md R82, R85; 70_reset_and_hazards.md R250 to R252 -/

/-- A blank or comment line takes no address, any other line takes the next one, and the lines are
taken in order, the last one with no LF after it included. Trimming takes the whitespace off both
ends and nothing else: a line of whitespace trims to the empty line (R82, R85; the whitespace set and
the line separator of R104 are the spec's own decision D17). -/
def Obligations.LinesAreTakenInOrder : Prop :=
  let whitespace : List Char := [' ', '\t', '\r', Char.ofNat 11, Char.ofNat 12]
  let accepted (line : Text) : List Text :=
    if trim line = [] ∨ (trim line).head? = some '#' then [] else [trim line]
  (∀ (line text : Text), '\n' ∉ line →
      acceptedLines line = accepted line
        ∧ acceptedLines (line ++ '\n' :: text) = accepted line ++ acceptedLines text)
    ∧ (∀ before body after : Text, (∀ c ∈ before, c ∈ whitespace) → (∀ c ∈ after, c ∈ whitespace) →
        (∀ c, body.head? = some c → c ∉ whitespace) →
        (∀ c, body.getLast? = some c → c ∉ whitespace) → trim (before ++ body ++ after) = body)
    ∧ ∀ line : Text, (∀ c ∈ line, c ∈ whitespace) → trim line = []

/-- A text is given a meaning exactly when it is ASCII and every accepted line decodes; any other
text is refused (R88, R89, R103, R104; the spec's own decisions D5, D6, D9, D17). -/
def Obligations.LoadRefusesExactlyTheUndecodable : Prop :=
  ∀ (text : Text) (s : State),
    ((∃ t, loadProgram text s = .next t) ↔
        (∀ c ∈ text, c.toNat < 128) ∧ ∀ line ∈ acceptedLines text, ∃ i, decodeText line = .ok i)
      ∧ ((¬ ∃ t, loadProgram text s = .next t) → ∃ r, loadProgram text s = .refused (.undecodable r))

/-- A load leaves registers 0, memory empty, pc 0, one record for each accepted line or word, in order, at the
addresses 0, 4, 8, …, and `halted` exactly when there is none; it sends no event (R251, 10_state.md R38,
30_encoding.md R85, R102; 46_host_interface.md R201). -/
def Obligations.LoadGivesFreshDefaults : Prop :=
  ∀ (input : LoadInput) (s t : State), load input s = .next t →
    (∀ r, t.x r = 0) ∧ (∀ a, memCell t.mem a = none) ∧ t.pc = 0
      ∧ (t.halted = true ↔ t.prog = []) ∧ t.events = s.events
      ∧ t.prog.map Record.source = (match input with
          | .text x => (acceptedLines x).map Source.text
          | .words ws => ws.map Source.word)
      ∧ ∀ k (h : k < t.prog.length), t.prog[k].address = 4 * k

/-- The state a load leaves is a function of what is loaded alone (R251, R252; R252 is marked as the
spec's own derivation). -/
def Obligations.LoadForgetsThePast : Prop :=
  ∀ (input : LoadInput) (s s' t : State), load input s = .next t →
    ∃ t', load input s' = .next t' ∧ SameArchitecture t t'

/-- Every instruction that a loaded program holds, and every decoded word, is a decoded instruction
of the spec: an `UNKNOWN` carries an uppercased token that is neither a recognised mnemonic nor the
branch-equal name (30_encoding.md R97, R100). -/
def Obligations.LoadedInstructionsAreWellFormed : Prop :=
  (∀ (text : Text) (s t : State), loadProgram text s = .next t →
      ∀ r ∈ t.prog, ∃ i, decodeSource r.source = .ok i ∧ i.wellFormed = true)
    ∧ ∀ w : Ciw, (decodeWord w).wellFormed = true

/-- The power-on state: registers 0, memory empty, pc 0, no program, halted (R250, 10_state.md R38; all but `halted` is the spec's own
decision D15, log entry 5). -/
def Obligations.PowerOnState : Prop :=
  (∀ r, State.reset.x r = 0) ∧ (∀ a, memCell State.reset.mem a = none) ∧ State.reset.pc = 0
    ∧ State.reset.prog = [] ∧ State.reset.halted = true

/-! ### Registers: 10_state.md R22, R23 -/

/-- Register 0 reads as 0 and a write to it does nothing; a write to another register stores
`wrap32` of the value and leaves the others (R22, R23). -/
def Obligations.RegisterWriteIsGatedAndWraps : Prop :=
  (∀ s : State, s.x 0 = 0) ∧ (∀ (s : State) (v : Int), s.writeReg 0 v = s)
    ∧ ∀ (s : State) (i : Reg) (v : Int), i ≠ 0 →
        IsWrap32 ((s.writeReg i v).x i) v ∧ ∀ r, r ≠ i → (s.writeReg i v).x r = s.x r

/-! ### The step: 40_fetch_decode_dispatch.md -/

/-- A step on a halted machine is the identity, sends no event and returns `false` (R121). -/
def Obligations.HaltedStepIsTheIdentity : Prop :=
  ∀ s : State, s.halted = true →
    ∃ t, step s = .next t ∧ SameArchitecture s t ∧ t.events = s.events ∧ t.result = none

/-- A fetch-miss halts: one `End` event, everything else unchanged, `false`; in a loaded machine it happens exactly at
`pc = 4N` (R123, 60_exceptions.md R221). -/
def Obligations.FetchMissHalts : Prop :=
  (∀ s : State, s.halted = false → (∀ r ∈ s.prog, r.address ≠ s.pc) →
    ∃ t, step s = .next t ∧ t.halted = true ∧ t.events = s.events ++ [.programEnd] ∧ t.result = none
      ∧ t.pc = s.pc ∧ t.regs = s.regs ∧ t.mem = s.mem ∧ t.prog = s.prog)
    ∧ ∀ s : State, Inv s → ((∀ r ∈ s.prog, r.address ≠ s.pc) ↔ s.pc = 4 * s.prog.length)

/-- A step whose decode faults takes the failure path: one `Error` event with the pc and the cause,
`halted`, `false`, and nothing else changes (R127, R128; R128 is marked as the spec's own
derivation). -/
def Obligations.FaultingStepChangesOnlyHalted : Prop :=
  ∀ (s : State) (r : Record) (cause : FaultCause), s.halted = false → s.fetch = some r →
    decodeSource r.source = .ok (.opfault cause) →
    ∃ t, step s = .next t ∧ t.halted = true ∧ t.events = s.events ++ [.error s.pc cause]
      ∧ t.result = none ∧ t.pc = s.pc ∧ t.regs = s.regs ∧ t.mem = s.mem ∧ t.prog = s.prog

/-- When the machine is running and the record at the pc decodes to `i`, the step is `exec i` (R120,
R122, R124, R125). When the record is one that decode refuses (30_encoding.md R97), the step is refused
by that name: the spec has no such step, and this clause is the model's choice, log entry 9 (DEDUCED). -/
def Obligations.StepRunsTheDecodedInstruction : Prop :=
  (∀ (s : State) (r : Record) (i : Instr), s.halted = false → s.fetch = some r →
      decodeSource r.source = .ok i → step s = exec i s)
    ∧ ∀ (s : State) (r : Record) (e : DecodeRefusal), s.halted = false → s.fetch = some r →
      decodeSource r.source = .error e → step s = .refused (.undecodable e)

/-- The record fetched at `pc = 4k` is the `k`-th accepted line, and at `pc = 4N` there is none (R122,
R123; `pc = 4N` is marked as the spec's own derivation). -/
def Obligations.FetchFindsTheRecordAtThePc : Prop :=
  ∀ s : State, Inv s →
    (∀ k (h : k < s.prog.length), s.pc = 4 * k → s.fetch = some s.prog[k])
      ∧ (s.pc = 4 * s.prog.length → s.fetch = none)

/-- A word placed where the next step fetches is what that step runs (30_encoding.md R102; log entry 10,
the model's own operation). -/
def Obligations.PlacedWordIsTheNextInstruction : Prop :=
  ∀ (s : State) (w : Ciw),
    step (s.withFetchWord 64 w.toNat) = exec (decodeWord w) (s.withFetchWord 64 w.toNat)
      ∧ decodeTableWord 64 w.toNat = some (decodeWord w)

/-- Every instruction but `OPFAULT` completes in every state: pc 4 further, still running, the program as
before, one trace event last and after it nothing, a `StepResult` with the display string (R126, R130). -/
def Obligations.EveryInstructionCompletes : Prop :=
  ∀ (i : Instr) (s : State), (∀ cause, i ≠ .opfault cause) →
    ∃ t before ann, exec i s = .next t ∧ Completed before ann s t
      ∧ (before = [] ∨ before = [.memoryChanged t.mem])
      ∧ ∃ bits, t.result = some ⟨bits⟩ ∧ bits.length = 31
          ∧ bits.take 24 = "??????? ????? ????? ??? ".toList

/-- A step taken while running sends the trace sink exactly one event, a halted step none (R131,
46_host_interface.md R206; R131 is marked as the spec's own derivation). -/
def Obligations.RunningStepSendsOneSinkEvent : Prop :=
  ∀ s t : State, step s = .next t →
    t.sinkCount = s.sinkCount + (if s.halted then 0 else 1)

/-- No step changes the program, and only `SW` changes memory or notifies the memory view (20_memory.md R60,
R63; 46_host_interface.md R207; R63 is marked as the spec's own derivation). -/
def Obligations.OnlyStoresChangeMemory : Prop :=
  (∀ s t : State, step s = .next t → t.prog = s.prog)
    ∧ ∀ (i : Instr) (s t : State), (∀ rs2 rs1 offset, i ≠ .sw rs2 rs1 offset) → exec i s = .next t →
        t.mem = s.mem ∧ ∀ snapshot, t.events.count (.memoryChanged snapshot)
          = s.events.count (.memoryChanged snapshot)

/-! ### Register-register: 41_reg_reg_alu.md -/

/-- `ADD` (R150, R151). -/
def Obligations.AddWritesTheWrappedSum : Prop :=
  ∀ (rd rs1 rs2 : Reg) (s : State), EncodedWith (.add rd rs1 rs2) 0x01 ∧
    ∃ t, exec (.add rd rs1 rs2) s = .next t ∧ OnlyWrites rd s t ∧ Completed [] .none s t
      ∧ (rd ≠ 0 → IsWrap32 (t.x rd) (s.x rs1 + s.x rs2))

/-- `SUB` (R150, R152). -/
def Obligations.SubWritesTheWrappedDifference : Prop :=
  ∀ (rd rs1 rs2 : Reg) (s : State), EncodedWith (.sub rd rs1 rs2) 0x02 ∧
    ∃ t, exec (.sub rd rs1 rs2) s = .next t ∧ OnlyWrites rd s t ∧ Completed [] .none s t
      ∧ (rd ≠ 0 → IsWrap32 (t.x rd) (s.x rs1 - s.x rs2))

/-- `AND` (R150, R153): bit by bit, on the patterns. -/
def Obligations.AndWritesTheBitwiseAnd : Prop :=
  ∀ (rd rs1 rs2 : Reg) (s : State), EncodedWith (.and rd rs1 rs2) 0x03 ∧
    ∃ t, exec (.and rd rs1 rs2) s = .next t ∧ OnlyWrites rd s t ∧ Completed [] .none s t
      ∧ (rd ≠ 0 → ∀ i < 32, (t.regWord rd).getLsbD i
          = ((s.regWord rs1).getLsbD i && (s.regWord rs2).getLsbD i))

/-- `OR` (R150, R154): bit by bit, on the patterns. -/
def Obligations.OrWritesTheBitwiseOr : Prop :=
  ∀ (rd rs1 rs2 : Reg) (s : State), EncodedWith (.or rd rs1 rs2) 0x04 ∧
    ∃ t, exec (.or rd rs1 rs2) s = .next t ∧ OnlyWrites rd s t ∧ Completed [] .none s t
      ∧ (rd ≠ 0 → ∀ i < 32, (t.regWord rd).getLsbD i
          = ((s.regWord rs1).getLsbD i || (s.regWord rs2).getLsbD i))

/-- `SLT` (R150, R155): signed, exact. -/
def Obligations.SltWritesTheSignedComparison : Prop :=
  ∀ (rd rs1 rs2 : Reg) (s : State), EncodedWith (.slt rd rs1 rs2) 0x05 ∧
    ∃ t, exec (.slt rd rs1 rs2) s = .next t ∧ OnlyWrites rd s t ∧ Completed [] .none s t
      ∧ (rd ≠ 0 → t.x rd = if s.x rs1 < s.x rs2 then 1 else 0)

/-- `MULT` (R150, R156): the exact product, wrapped (exactness is the spec's own decision D11). -/
def Obligations.MultWritesTheWrappedProduct : Prop :=
  ∀ (rd rs1 rs2 : Reg) (s : State), EncodedWith (.mult rd rs1 rs2) 0x06 ∧
    ∃ t, exec (.mult rd rs1 rs2) s = .next t ∧ OnlyWrites rd s t ∧ Completed [] .none s t
      ∧ (rd ≠ 0 → IsWrap32 (t.x rd) (s.x rs1 * s.x rs2))

/-- `SLL` (R150, R157): by the low five bits of the second source (for a negative one the spec's own
decision D10). -/
def Obligations.SllWritesTheWrappedShift : Prop :=
  ∀ (rd rs1 rs2 : Reg) (s : State), EncodedWith (.sll rd rs1 rs2) 0x07 ∧
    ∃ t, exec (.sll rd rs1 rs2) s = .next t ∧ OnlyWrites rd s t ∧ Completed [] .none s t
      ∧ (rd ≠ 0 → IsWrap32 (t.x rd) (s.x rs1 * 2 ^ ((s.regWord rs2).extractLsb' 0 5).toNat))

/-! ### Register-immediate: 42_reg_imm.md -/

/-- `ADDI` (R170, R171), with an immediate of any size (the spec's own decision D13). -/
def Obligations.AddiWritesTheWrappedSum : Prop :=
  ∀ (rd rs1 : Reg) (imm : Int) (s : State), EncodedWith (.addi rd rs1 imm) 0x08 ∧
    ∃ t, exec (.addi rd rs1 imm) s = .next t ∧ OnlyWrites rd s t ∧ Completed [] .none s t
      ∧ (rd ≠ 0 → IsWrap32 (t.x rd) (s.x rs1 + imm))

/-- `SLTI` (R170, R172): the immediate is not wrapped before the comparison (the spec's own decision
D13). -/
def Obligations.SltiWritesTheSignedComparison : Prop :=
  ∀ (rd rs1 : Reg) (imm : Int) (s : State), EncodedWith (.slti rd rs1 imm) 0x09 ∧
    ∃ t, exec (.slti rd rs1 imm) s = .next t ∧ OnlyWrites rd s t ∧ Completed [] .none s t
      ∧ (rd ≠ 0 → t.x rd = if s.x rs1 < imm then 1 else 0)

/-! ### Load and store: 43_load_store.md, 20_memory.md -/

/-- `LW` (R180, R181): the cell at the unwrapped address, 0 when there is none; no cell is created
(that the address is not wrapped is the spec's own decision D12). -/
def Obligations.LwLoadsTheCell : Prop :=
  ∀ (rd rs1 : Reg) (offset : Int) (s : State), EncodedWith (.lw rd rs1 offset) 0x0A ∧
    ∃ t v, exec (.lw rd rs1 offset) s = .next t
      ∧ v = (memCell s.mem (s.x rs1 + offset)).getD 0
      ∧ OnlyWrites rd s t ∧ Completed [] (.load v (s.x rs1 + offset)) s t
      ∧ (rd ≠ 0 → t.x rd = v.toInt)

/-- `SW` (R180, R182): the cell at the unwrapped address, and no other, then the notification with
the memory after the write, then the trace event (the unwrapped address is the spec's own decision D12). -/
def Obligations.SwStoresTheCell : Prop :=
  ∀ (rs2 rs1 : Reg) (offset : Int) (s : State), EncodedWith (.sw rs2 rs1 offset) 0x0B ∧
    ∃ t v, exec (.sw rs2 rs1 offset) s = .next t ∧ v.toInt = s.x rs2
      ∧ memCell t.mem (s.x rs1 + offset) = some v
      ∧ (∀ a, a ≠ s.x rs1 + offset → memCell t.mem a = memCell s.mem a)
      ∧ SameRegisters s t
      ∧ Completed [.memoryChanged t.mem] (.store v (s.x rs1 + offset)) s t

/-- The snapshot of a store lists exactly the existing cells, ascending by address, and is never
empty (46_host_interface.md R207). -/
def Obligations.SnapshotListsTheCells : Prop :=
  ∀ (rs2 rs1 : Reg) (offset : Int) (s : State), s.mem.wf →
    ∃ t snapshot, exec (.sw rs2 rs1 offset) s = .next t
      ∧ Event.memoryChanged snapshot ∈ t.events.drop s.events.length
      ∧ snapshot.Pairwise (fun p q => p.1 < q.1) ∧ snapshot ≠ []
      ∧ ∀ a v, (a, v) ∈ snapshot ↔ memCell t.mem a = some v

/-- Round trip and independence of `SW` and `LW`: with the same base and offset the load gives the stored
value, and so it does exactly when the two addresses are equal as integers; another address gives
what it held before; register 0 reads 0 whatever was stored (R183; the case of register 0 is marked as the spec's own
derivation). -/
def Obligations.StoreThenLoadReturnsTheValue : Prop :=
  ∀ (a b c d : Reg) (k j : Int) (s t : State), exec (.sw a b k) s = .next t →
    ∃ u, exec (.lw c d j) t = .next u ∧ (c = 0 → u.x c = 0)
      ∧ (c ≠ 0 → d = b → j = k → u.x c = s.x a)
      ∧ (c ≠ 0 → s.x b + k = s.x d + j → u.x c = s.x a)
      ∧ (c ≠ 0 → s.x b + k ≠ s.x d + j → u.x c = ((memCell s.mem (s.x d + j)).getD 0).toInt)

/-- Two loads of one address with no store between them give the same value (20_memory.md R57). -/
def Obligations.LoadIsIdempotent : Prop :=
  ∀ (r₁ b₁ r₂ b₂ : Reg) (k₁ k₂ : Int) (s t u : State), r₁ ≠ 0 → r₂ ≠ 0 →
    exec (.lw r₁ b₁ k₁) s = .next t → s.x b₁ + k₁ = t.x b₂ + k₂ → exec (.lw r₂ b₂ k₂) t = .next u →
    u.x r₂ = t.x r₁

/-! ### Output and no-ops: 44_output_and_unknown.md -/

/-- `PRINT` (R190): the value of the register goes out; only the pc changes. -/
def Obligations.PrintSendsTheRegister : Prop :=
  ∀ (rs : Reg) (s : State), EncodedWith (.print rs) 0x0C ∧
    ∃ t v, exec (.print rs) s = .next t ∧ v.toInt = s.x rs ∧ Completed [] (.print v) s t
      ∧ SameRegisters s t ∧ SameMemory s t

/-- `UNKNOWN` (R191): a no-op that completes; the display code is `"0000000"` unless the table has
an entry for the mnemonic. -/
def Obligations.UnknownIsANoOp : Prop :=
  ∀ (m : Option Text) (s : State), EncodedWith (.unknown m) 0x00 ∧
    ∃ t, exec (.unknown m) s = .next t ∧ Completed [] .none s t
      ∧ SameRegisters s t ∧ SameMemory s t ∧ ∀ name, m = some name → ShowsCodeOf name t

/-- The branch-equal name (R192): a no-op that completes, with a display code of its own (the
spelling and the `op7` are the spec's own, D3 and 93_implementation_defined.md G3). -/
def Obligations.BranchEqualNameIsANoOp : Prop :=
  ∀ s : State, EncodedWith .beq 0x0D ∧
    ∃ t, exec .beq s = .next t ∧ Completed [] .none s t
      ∧ SameRegisters s t ∧ SameMemory s t ∧ ShowsCodeOf "BEQ".toList t

/-- `OPFAULT(cause)` (R193): the failure path and nothing else (the word is the spec's own decision D4). -/
def Obligations.OpfaultTakesTheFailurePath : Prop :=
  ∀ (cause : FaultCause) (s : State), EncodedWith (.opfault cause) 0x7F ∧
    ∃ t, exec (.opfault cause) s = .next t ∧ t.halted = true
      ∧ t.events = s.events ++ [.error s.pc cause] ∧ t.result = none ∧ t.pc = s.pc
      ∧ SameRegisters s t ∧ SameMemory s t ∧ t.prog = s.prog

/-- The display string of every successful instruction carries the code of its mnemonic and depends on
nothing else (46_host_interface.md R208, R209, R210; R210 is marked as the spec's own derivation). -/
def Obligations.DisplayStringShowsTheMnemonic : Prop :=
  ∀ (i : Instr) (m : Text) (s t : State), displayName i = some m → exec i s = .next t →
    ShowsCodeOf m t

/-! ### The invariant and whole runs -/

/-- The power-on state meets the invariant (10_state.md R38). -/
def Obligations.PowerOnMeetsTheInvariant : Prop := Inv State.reset

/-- Every load establishes the invariant, from any state (R251). -/
def Obligations.LoadEstablishesTheInvariant : Prop :=
  ∀ (input : LoadInput) (s t : State), load input s = .next t → Inv t

/-- Every step keeps the invariant (10_state.md R22, R28, R30; 60_exceptions.md R224, R228). -/
def Obligations.StepKeepsTheInvariant : Prop :=
  ∀ s t : State, Inv s → step s = .next t → Inv t

/-- From a state that meets the invariant a step is never refused and never a fault of the model
(60_exceptions.md R225, marked as the spec's own derivation). -/
def Obligations.LoadedMachineAlwaysSteps : Prop :=
  ∀ s : State, Inv s → ∃ t, step s = .next t

/-- A stop is told apart by the pc: a running step that halts leaves `pc = 4N` after a fetch-miss and
the address of the faulting record, below `4N`, after a fault (60_exceptions.md R224, marked as the spec's own
derivation). -/
def Obligations.StopIsVisibleInThePc : Prop :=
  ∀ s t : State, Inv s → s.halted = false → step s = .next t → t.halted = true → t.pc = s.pc
    ∧ (t.events = s.events ++ [.programEnd] ↔ t.pc = 4 * t.prog.length)
    ∧ ((∃ cause, t.events = s.events ++ [.error s.pc cause]) ↔ t.pc < 4 * t.prog.length)

/-- After `n` successful steps the pc is `4n` further (10_state.md R27, 70_reset_and_hazards.md R257). A run
that ends in a running machine is one whose every step succeeded. -/
def Obligations.PcCountsTheSteps : Prop :=
  ∀ (n : Nat) (s t : State), Host.Core.run Sys2Proof.core n s = .next t → t.halted = false →
    s.halted = false ∧ t.pc = s.pc + 4 * n

/-- No program loops: from any state that meets the invariant the machine is halted after at most
`N + 1` steps (44_output_and_unknown.md R194, marked as the spec's own derivation). -/
def Obligations.EveryRunHalts : Prop :=
  ∀ (s : State) (n : Nat), Inv s → s.prog.length < n →
    ∃ t : State, Host.Core.run Sys2Proof.core n s = .next t ∧ t.halted = true

/-- The text level and the word level agree: a step of a text-level machine and a step of its
word-level image lead to a machine and its image (30_encoding.md R101, INDEX.md). -/
def Obligations.TextAndWordMachinesAgree : Prop :=
  ∀ s t s' : State, IsImage s t → step s = .next s' → ∃ t', step t = .next t' ∧ IsImage s' t'

/-- A text whose lines all have a word image, and the load of those words, start as a machine and its
image (30_encoding.md R101, R102). -/
def Obligations.LoadedWordsAreTheImage : Prop :=
  ∀ (text : Text) (ws : List Ciw) (s t : State), loadProgram text s = .next t →
    imageOf (acceptedLines text) = some ws → IsImage t (loadWords ws s)

/-! ### The environment: 46_host_interface.md R200, R211; 70_reset_and_hazards.md R258 -/

/-- At most one command is accepted per cycle: with one asserted it is performed, with none nothing
happens, with both the cycle has no meaning (70_reset_and_hazards.md R258; the spec's own decision D1). -/
def Obligations.CommandsAreSerialised : Prop :=
  ∀ (input : LoadInput) (s : State),
    commandCycle none false s = .next s ∧ commandCycle none true s = step s
      ∧ commandCycle (some input) false s = load input s
      ∧ commandCycle (some input) true s = .refused .simultaneousCommands

/-- The driver repeats plain steps and ends at the first `false`, at the ceiling or at the outside stop,
whichever comes first (46_host_interface.md R211). That each run counts its steps from 0 against the
whole ceiling is the model's choice, log entry 19 (DESIGN CHOICE). -/
def Obligations.DriverStopsAtTheFirstFalse : Prop :=
  ∀ (ceiling : Nat) (stopAfter : Option Nat) (s : State), Inv s →
    ∃ n t, runDriver ceiling stopAfter s = .next t ∧ Host.Core.run Sys2Proof.core n s = .next t
      ∧ (∀ k u, 0 < k → k < n → Host.Core.run Sys2Proof.core k s = .next u → State.halted u = false)
      ∧ n ≤ ceiling ∧ (∀ k, stopAfter = some k → n ≤ k)
      ∧ (t.halted = true ∨ n = ceiling ∨ stopAfter = some n)
end

