-- ==== Sys2Proof/Laws/Encoding.lean ====
section
/-!
SUPPORT. The fields of a packed word (30_encoding.md R98).
-/

namespace Sys2Proof

/-- Bit `k` of a packed word, by the field it lies in. -/
theorem packWord_bit (imm : Int) (c b a : Reg) (op7 : BitVec 7) (k : Nat) :
    (packWord imm c b a op7).getLsbD k
      = if k < 7 then op7.getLsbD k
        else if k < 12 then (BitVec.ofFin (w := 5) a).getLsbD (k - 7)
        else if k < 17 then (BitVec.ofFin (w := 5) b).getLsbD (k - 12)
        else if k < 22 then (BitVec.ofFin (w := 5) c).getLsbD (k - 17)
        else if k < 32 then false
        else (BitVec.ofInt 32 imm).getLsbD (k - 32) := by
  have h : (packWord imm c b a op7).getLsbD k
      = (((((BitVec.ofInt 32 imm ++ 0#10 : BitVec (32 + 10)) ++ BitVec.ofFin (w := 5) c
          : BitVec (32 + 10 + 5)) ++ BitVec.ofFin (w := 5) b : BitVec (32 + 10 + 5 + 5))
        ++ BitVec.ofFin (w := 5) a : BitVec (32 + 10 + 5 + 5 + 5)) ++ op7
          : BitVec (32 + 10 + 5 + 5 + 5 + 7)).getLsbD k := rfl
  rw [h]
  simp only [BitVec.getLsbD_append]
  simp only [Nat.sub_sub, Nat.reduceAdd, BitVec.getLsbD_zero]
  split_ifs <;> first | rfl | omega

/-- A field of a packed word that reads as `x` bit by bit is `x`. -/
theorem extract_packWord (imm : Int) (c b a : Reg) (op7 : BitVec 7) (start len : Nat) (x : BitVec len)
    (h : ∀ i, i < len → (packWord imm c b a op7).getLsbD (start + i) = x.getLsbD i) :
    (packWord imm c b a op7).extractLsb' start len = x := by
  apply BitVec.eq_of_getLsbD_eq
  intro i hi
  rw [BitVec.getLsbD_extractLsb', h i hi]
  simp [hi]

@[simp] theorem fieldOp7_packWord (imm : Int) (c b a : Reg) (op7 : BitVec 7) :
    fieldOp7 (packWord imm c b a op7) = op7 :=
  extract_packWord _ _ _ _ _ _ _ _ fun i hi => by rw [packWord_bit, if_pos (by omega), Nat.zero_add]

@[simp] theorem fieldA_packWord (imm : Int) (c b a : Reg) (op7 : BitVec 7) :
    fieldA (packWord imm c b a op7) = a := by
  rw [fieldA, extract_packWord imm c b a op7 7 5 (BitVec.ofFin (w := 5) a) fun i hi => by
    rw [packWord_bit, if_neg (by omega), if_pos (by omega), Nat.add_sub_cancel_left]]

@[simp] theorem fieldB_packWord (imm : Int) (c b a : Reg) (op7 : BitVec 7) :
    fieldB (packWord imm c b a op7) = b := by
  rw [fieldB, extract_packWord imm c b a op7 12 5 (BitVec.ofFin (w := 5) b) fun i hi => by
    rw [packWord_bit, if_neg (by omega), if_neg (by omega), if_pos (by omega), Nat.add_sub_cancel_left]]

@[simp] theorem fieldC_packWord (imm : Int) (c b a : Reg) (op7 : BitVec 7) :
    fieldC (packWord imm c b a op7) = c := by
  rw [fieldC, extract_packWord imm c b a op7 17 5 (BitVec.ofFin (w := 5) c) fun i hi => by
    rw [packWord_bit, if_neg (by omega), if_neg (by omega), if_neg (by omega), if_pos (by omega),
      Nat.add_sub_cancel_left]]

/-- Bits 31:22 of a packed word are zero. -/
theorem zeroField_packWord (imm : Int) (c b a : Reg) (op7 : BitVec 7) :
    (packWord imm c b a op7).extractLsb' 22 10 = 0#10 :=
  extract_packWord _ _ _ _ _ _ _ _ fun i hi => by
    rw [packWord_bit, if_neg (by omega), if_neg (by omega), if_neg (by omega), if_neg (by omega),
      if_pos (by omega), BitVec.getLsbD_zero]

/-- The immediate field of a packed word reads back as the immediate, for every `int32`. -/
theorem fieldImm_packWord (imm : Int) (h : InInt32 imm) (c b a : Reg) (op7 : BitVec 7) :
    fieldImm (packWord imm c b a op7) = imm := by
  have h1 := h.1
  have h2 := h.2
  rw [fieldImm, extract_packWord imm c b a op7 32 32 (BitVec.ofInt 32 imm) fun i hi => by
    rw [packWord_bit, if_neg (by omega), if_neg (by omega), if_neg (by omega), if_neg (by omega),
      if_neg (by omega), Nat.add_sub_cancel_left], BitVec.toInt_ofInt]
  exact Int.bmod_eq_of_le (by omega) (by omega)

/-- The operation code of a word is its low seven bits, as a number. -/
theorem fieldOp7_toNat (w : Ciw) : (fieldOp7 w).toNat = w.toNat % 128 := by
  simp [fieldOp7, BitVec.extractLsb'_toNat]

end Sys2Proof
end

