-- ==== Sys2Proof/Laws/Memory.lean ====
section
/-!
SUPPORT. What a memory write does, and that it keeps the canonical form.
-/

namespace Sys2Proof.Machine

/-- A write makes its own cell and leaves every other address as it was. -/
theorem memCell_memWrite (m : Memory) (a : Int) (v : Word) (b : Int) :
    memCell (memWrite m a v) b = if b = a then some v else memCell m b := by
  induction m with
  | nil => simp only [memWrite, memCell]
  | cons p m ih =>
    obtain ⟨c, u⟩ := p
    simp only [memWrite]
    by_cases h1 : a < c
    · rw [if_pos h1]; rfl
    · by_cases h2 : a = c
      · rw [if_neg h1, if_pos h2, ← h2]; simp only [memCell]; split_ifs <;> rfl
      · rw [if_neg h1, if_neg h2]
        simp only [memCell, ih]
        by_cases h3 : b = c
        · rw [if_pos h3, if_neg (fun h : b = a => h2 (h.symm.trans h3)), if_pos h3]
        · rw [if_neg h3, if_neg h3]

/-- A write adds no address but its own. -/
theorem fst_mem_memWrite (m : Memory) (a : Int) (v : Word) (q : Int × Word)
    (h : q ∈ memWrite m a v) : q.1 = a ∨ q ∈ m := by
  induction m with
  | nil => simp only [memWrite, List.mem_singleton] at h; exact .inl (by rw [h])
  | cons p m ih =>
    simp only [memWrite] at h
    split_ifs at h with h1 h2
    · rcases List.mem_cons.1 h with rfl | h
      exacts [.inl rfl, .inr h]
    · rcases List.mem_cons.1 h with rfl | h
      exacts [.inl rfl, .inr (List.mem_cons_of_mem _ h)]
    · rcases List.mem_cons.1 h with rfl | h
      · exact .inr List.mem_cons_self
      · exact (ih h).imp_right (List.mem_cons_of_mem _)

/-- A write keeps the canonical form. -/
theorem memWrite_wf (m : Memory) (a : Int) (v : Word) (h : m.wf) : (memWrite m a v).wf := by
  induction m with
  | nil => simp [memWrite]
  | cons p m ih =>
    obtain ⟨hp, hm⟩ := List.pairwise_cons.1 h
    simp only [memWrite]
    split_ifs with h1 h2
    · refine List.pairwise_cons.2 ⟨fun q hq => ?_, h⟩
      rcases List.mem_cons.1 hq with rfl | hq
      exacts [h1, lt_trans h1 (hp q hq)]
    · exact List.pairwise_cons.2 ⟨fun q hq => h2 ▸ hp q hq, hm⟩
    · refine List.pairwise_cons.2 ⟨fun q hq => ?_, ih hm⟩
      rcases fst_mem_memWrite m a v q hq with h3 | h3
      exacts [by omega, hp q h3]

/-- In canonical form the listed pairs are exactly the existing cells. -/
theorem mem_iff_memCell (m : Memory) (h : m.wf) (a : Int) (v : Word) :
    (a, v) ∈ m ↔ memCell m a = some v := by
  induction m with
  | nil => simp [memCell]
  | cons p m ih =>
    obtain ⟨hp, hm⟩ := List.pairwise_cons.1 h
    obtain ⟨b, u⟩ := p
    simp only [memCell, List.mem_cons, Prod.mk.injEq, ih hm]
    split_ifs with hab
    · subst hab
      constructor
      · rintro (⟨-, rfl⟩ | hc)
        · rfl
        · exact absurd (hp _ ((ih hm).2 hc)) (lt_irrefl _)
      · rintro hv; exact .inl ⟨rfl, (Option.some.inj hv).symm⟩
    · simp [hab]

/-- The memory of the power-on state is in canonical form. -/
theorem reset_mem_wf : State.reset.mem.wf := List.Pairwise.nil

end Sys2Proof.Machine
end

