-- ==== Sys2Proof/Laws/PerInstr.lean ====
section
/-!
SUPPORT. Per-instruction laws. `ReservedBits`: the words the encoder writes have zeros in bits 31:22
(30_encoding.md R98).
-/

namespace Sys2Proof.Laws.ReservedBits

/-- Every word written for `i` has zeros in bits 31:22. -/
def Statement (i : Instr) : Prop := ∀ w, encode i = some w → w.extractLsb' 22 10 = 0#10

/-- It is enough that `encodeBits` packs fields. -/
theorem of_packed {i : Instr} {imm : Int} {c b a : Reg} {op7 : BitVec 7}
    (h : encodeBits i = packWord imm c b a op7) : Statement i := by
  intro w hw
  unfold encode at hw
  split at hw
  · cases hw; rw [h]; exact zeroField_packWord ..
  · cases hw

theorem add (rd rs1 rs2 : Reg) : Statement (.add rd rs1 rs2) := of_packed rfl
theorem sub (rd rs1 rs2 : Reg) : Statement (.sub rd rs1 rs2) := of_packed rfl
theorem and (rd rs1 rs2 : Reg) : Statement (.and rd rs1 rs2) := of_packed rfl
theorem or (rd rs1 rs2 : Reg) : Statement (.or rd rs1 rs2) := of_packed rfl
theorem slt (rd rs1 rs2 : Reg) : Statement (.slt rd rs1 rs2) := of_packed rfl
theorem mult (rd rs1 rs2 : Reg) : Statement (.mult rd rs1 rs2) := of_packed rfl
theorem sll (rd rs1 rs2 : Reg) : Statement (.sll rd rs1 rs2) := of_packed rfl
theorem addi (rd rs1 : Reg) (imm : Int) : Statement (.addi rd rs1 imm) := of_packed rfl
theorem slti (rd rs1 : Reg) (imm : Int) : Statement (.slti rd rs1 imm) := of_packed rfl
theorem lw (rd rs1 : Reg) (offset : Int) : Statement (.lw rd rs1 offset) := of_packed rfl
theorem sw (rs2 rs1 : Reg) (offset : Int) : Statement (.sw rs2 rs1 offset) := of_packed rfl
theorem print (rs : Reg) : Statement (.print rs) := of_packed rfl
theorem beq : Statement .beq := of_packed rfl
theorem unknown (m : Option Text) : Statement (.unknown m) := of_packed rfl
theorem opfault (cause : FaultCause) : Statement (.opfault cause) := of_packed rfl

end Sys2Proof.Laws.ReservedBits
end

