-- ==== Sys2Proof/Laws/State.lean ====
section
/-!
SUPPORT. What each update of the state does to each field.
-/

namespace Sys2Proof.Machine

/-! ### Register write -/

@[simp] theorem writeReg_pc (s : State) (i : Reg) (v : Int) : (s.writeReg i v).pc = s.pc := by
  unfold State.writeReg; split <;> rfl
@[simp] theorem writeReg_halted (s : State) (i : Reg) (v : Int) :
    (s.writeReg i v).halted = s.halted := by unfold State.writeReg; split <;> rfl
@[simp] theorem writeReg_mem (s : State) (i : Reg) (v : Int) : (s.writeReg i v).mem = s.mem := by
  unfold State.writeReg; split <;> rfl
@[simp] theorem writeReg_prog (s : State) (i : Reg) (v : Int) : (s.writeReg i v).prog = s.prog := by
  unfold State.writeReg; split <;> rfl
@[simp] theorem writeReg_events (s : State) (i : Reg) (v : Int) :
    (s.writeReg i v).events = s.events := by unfold State.writeReg; split <;> rfl
@[simp] theorem writeReg_result (s : State) (i : Reg) (v : Int) :
    (s.writeReg i v).result = s.result := by unfold State.writeReg; split <;> rfl
@[simp] theorem writeReg_freeIndex (s : State) (i : Reg) (v : Int) :
    (s.writeReg i v).freeIndex = s.freeIndex := by unfold State.writeReg; split <;> rfl

/-! ### One event -/

@[simp] theorem emit_regs (s : State) (e : Event) : (s.emit e).regs = s.regs := rfl
@[simp] theorem emit_pc (s : State) (e : Event) : (s.emit e).pc = s.pc := rfl
@[simp] theorem emit_halted (s : State) (e : Event) : (s.emit e).halted = s.halted := rfl
@[simp] theorem emit_mem (s : State) (e : Event) : (s.emit e).mem = s.mem := rfl
@[simp] theorem emit_prog (s : State) (e : Event) : (s.emit e).prog = s.prog := rfl
@[simp] theorem emit_events (s : State) (e : Event) : (s.emit e).events = s.events ++ [e] := rfl
@[simp] theorem emit_result (s : State) (e : Event) : (s.emit e).result = s.result := rfl
@[simp] theorem emit_freeIndex (s : State) (e : Event) : (s.emit e).freeIndex = s.freeIndex := rfl

/-! ### Completion -/

@[simp] theorem complete_regs (s : State) (c : Config.Code7) (ann : Annotation) :
    (s.complete c ann).regs = s.regs := rfl
@[simp] theorem complete_pc (s : State) (c : Config.Code7) (ann : Annotation) :
    (s.complete c ann).pc = s.pc + 4 := rfl
@[simp] theorem complete_halted (s : State) (c : Config.Code7) (ann : Annotation) :
    (s.complete c ann).halted = s.halted := rfl
@[simp] theorem complete_mem (s : State) (c : Config.Code7) (ann : Annotation) :
    (s.complete c ann).mem = s.mem := rfl
@[simp] theorem complete_prog (s : State) (c : Config.Code7) (ann : Annotation) :
    (s.complete c ann).prog = s.prog := rfl
@[simp] theorem complete_events (s : State) (c : Config.Code7) (ann : Annotation) :
    (s.complete c ann).events = s.events ++ [.trace s.pc (s.fetch.map Record.source) ann] := rfl
@[simp] theorem complete_result (s : State) (c : Config.Code7) (ann : Annotation) :
    (s.complete c ann).result = some ⟨bitPattern c⟩ := rfl
@[simp] theorem complete_freeIndex (s : State) (c : Config.Code7) (ann : Annotation) :
    (s.complete c ann).freeIndex = s.freeIndex := rfl

/-! ### The free-value counter -/

@[simp] theorem useFree_regs (s : State) : s.useFree.regs = s.regs := rfl
@[simp] theorem useFree_pc (s : State) : s.useFree.pc = s.pc := rfl
@[simp] theorem useFree_halted (s : State) : s.useFree.halted = s.halted := rfl
@[simp] theorem useFree_mem (s : State) : s.useFree.mem = s.mem := rfl
@[simp] theorem useFree_prog (s : State) : s.useFree.prog = s.prog := rfl
@[simp] theorem useFree_events (s : State) : s.useFree.events = s.events := rfl
@[simp] theorem useFree_result (s : State) : s.useFree.result = s.result := rfl
@[simp] theorem useFree_freeIndex (s : State) : s.useFree.freeIndex = s.freeIndex + 1 := rfl

/-! ### The failure path -/

@[simp] theorem raiseExecFault_regs (s : State) (c : FaultCause) :
    (s.raiseExecFault c).regs = s.regs := rfl
@[simp] theorem raiseExecFault_pc (s : State) (c : FaultCause) : (s.raiseExecFault c).pc = s.pc := rfl
@[simp] theorem raiseExecFault_halted (s : State) (c : FaultCause) :
    (s.raiseExecFault c).halted = true := rfl
@[simp] theorem raiseExecFault_mem (s : State) (c : FaultCause) :
    (s.raiseExecFault c).mem = s.mem := rfl
@[simp] theorem raiseExecFault_prog (s : State) (c : FaultCause) :
    (s.raiseExecFault c).prog = s.prog := rfl
@[simp] theorem raiseExecFault_events (s : State) (c : FaultCause) :
    (s.raiseExecFault c).events = s.events ++ [.error s.pc c] := rfl
@[simp] theorem raiseExecFault_result (s : State) (c : FaultCause) :
    (s.raiseExecFault c).result = none := rfl
@[simp] theorem raiseExecFault_freeIndex (s : State) (c : FaultCause) :
    (s.raiseExecFault c).freeIndex = s.freeIndex := rfl

/-! ### Fetch-miss and halted step -/

@[simp] theorem fetchMiss_regs (s : State) : s.fetchMiss.regs = s.regs := rfl
@[simp] theorem fetchMiss_pc (s : State) : s.fetchMiss.pc = s.pc := rfl
@[simp] theorem fetchMiss_halted (s : State) : s.fetchMiss.halted = true := rfl
@[simp] theorem fetchMiss_mem (s : State) : s.fetchMiss.mem = s.mem := rfl
@[simp] theorem fetchMiss_prog (s : State) : s.fetchMiss.prog = s.prog := rfl
@[simp] theorem fetchMiss_events (s : State) : s.fetchMiss.events = s.events ++ [.programEnd] := rfl
@[simp] theorem fetchMiss_result (s : State) : s.fetchMiss.result = none := rfl
@[simp] theorem fetchMiss_freeIndex (s : State) : s.fetchMiss.freeIndex = s.freeIndex := rfl

@[simp] theorem haltedStep_regs (s : State) : s.haltedStep.regs = s.regs := rfl
@[simp] theorem haltedStep_pc (s : State) : s.haltedStep.pc = s.pc := rfl
@[simp] theorem haltedStep_halted (s : State) : s.haltedStep.halted = s.halted := rfl
@[simp] theorem haltedStep_mem (s : State) : s.haltedStep.mem = s.mem := rfl
@[simp] theorem haltedStep_prog (s : State) : s.haltedStep.prog = s.prog := rfl
@[simp] theorem haltedStep_events (s : State) : s.haltedStep.events = s.events := rfl
@[simp] theorem haltedStep_result (s : State) : s.haltedStep.result = none := rfl
@[simp] theorem haltedStep_freeIndex (s : State) : s.haltedStep.freeIndex = s.freeIndex := rfl

/-! ### Store to data memory -/

@[simp] theorem store_regs (s : State) (a : Int) (v : Word) : (s.store a v).regs = s.regs := rfl
@[simp] theorem store_pc (s : State) (a : Int) (v : Word) : (s.store a v).pc = s.pc := rfl
@[simp] theorem store_halted (s : State) (a : Int) (v : Word) : (s.store a v).halted = s.halted := rfl
@[simp] theorem store_mem (s : State) (a : Int) (v : Word) :
    (s.store a v).mem = memWrite s.mem a v := rfl
@[simp] theorem store_prog (s : State) (a : Int) (v : Word) : (s.store a v).prog = s.prog := rfl
@[simp] theorem store_events (s : State) (a : Int) (v : Word) :
    (s.store a v).events = s.events ++ [.memoryChanged (memWrite s.mem a v)] := rfl
@[simp] theorem store_result (s : State) (a : Int) (v : Word) : (s.store a v).result = s.result := rfl
@[simp] theorem store_freeIndex (s : State) (a : Int) (v : Word) :
    (s.store a v).freeIndex = s.freeIndex := rfl

/-! ### Load of a program -/

@[simp] theorem loaded_regs (s : State) (p : List Record) :
    (s.loaded p).regs = Vector.replicate 32 0 := rfl
@[simp] theorem loaded_pc (s : State) (p : List Record) : (s.loaded p).pc = 0 := rfl
@[simp] theorem loaded_halted (s : State) (p : List Record) : (s.loaded p).halted = p.isEmpty := rfl
@[simp] theorem loaded_mem (s : State) (p : List Record) : (s.loaded p).mem = [] := rfl
@[simp] theorem loaded_prog (s : State) (p : List Record) : (s.loaded p).prog = p := rfl
@[simp] theorem loaded_events (s : State) (p : List Record) : (s.loaded p).events = s.events := rfl
@[simp] theorem loaded_result (s : State) (p : List Record) : (s.loaded p).result = none := rfl
@[simp] theorem loaded_freeIndex (s : State) (p : List Record) :
    (s.loaded p).freeIndex = s.freeIndex := rfl

/-! ### Placing a word at the pc -/

@[simp] theorem placeWord_regs (s : State) (w : Ciw) : (s.placeWord w).regs = s.regs := rfl
@[simp] theorem placeWord_pc (s : State) (w : Ciw) : (s.placeWord w).pc = s.pc := rfl
@[simp] theorem placeWord_halted (s : State) (w : Ciw) : (s.placeWord w).halted = false := rfl
@[simp] theorem placeWord_mem (s : State) (w : Ciw) : (s.placeWord w).mem = s.mem := rfl
@[simp] theorem placeWord_prog (s : State) (w : Ciw) :
    (s.placeWord w).prog = storeWord s.prog s.pc w := rfl
@[simp] theorem placeWord_events (s : State) (w : Ciw) : (s.placeWord w).events = s.events := rfl
@[simp] theorem placeWord_result (s : State) (w : Ciw) : (s.placeWord w).result = s.result := rfl
@[simp] theorem placeWord_freeIndex (s : State) (w : Ciw) :
    (s.placeWord w).freeIndex = s.freeIndex := rfl

/-! ### Register reads depend on the register file, fetch on the program and the pc -/

theorem regWord_congr (s t : State) (h : t.regs = s.regs) (i : Reg) : t.regWord i = s.regWord i := by
  simp only [State.regWord, h]

theorem x_congr (s t : State) (h : t.regs = s.regs) (i : Reg) : t.x i = s.x i := by
  simp only [State.x, regWord_congr s t h]

theorem fetch_congr (s t : State) (hp : t.prog = s.prog) (hc : t.pc = s.pc) : t.fetch = s.fetch := by
  simp only [State.fetch, hp, hc]

@[simp] theorem emit_x (s : State) (e : Event) (i : Reg) : (s.emit e).x i = s.x i := rfl
@[simp] theorem emit_regWord (s : State) (e : Event) (i : Reg) : (s.emit e).regWord i = s.regWord i := rfl
@[simp] theorem complete_x (s : State) (c : Config.Code7) (ann : Annotation) (i : Reg) :
    (s.complete c ann).x i = s.x i := rfl
@[simp] theorem complete_regWord (s : State) (c : Config.Code7) (ann : Annotation) (i : Reg) :
    (s.complete c ann).regWord i = s.regWord i := rfl
@[simp] theorem useFree_x (s : State) (i : Reg) : s.useFree.x i = s.x i := rfl
@[simp] theorem useFree_regWord (s : State) (i : Reg) : s.useFree.regWord i = s.regWord i := rfl
@[simp] theorem raiseExecFault_x (s : State) (c : FaultCause) (i : Reg) :
    (s.raiseExecFault c).x i = s.x i := rfl
@[simp] theorem raiseExecFault_regWord (s : State) (c : FaultCause) (i : Reg) :
    (s.raiseExecFault c).regWord i = s.regWord i := rfl
@[simp] theorem store_x (s : State) (a : Int) (v : Word) (i : Reg) : (s.store a v).x i = s.x i := rfl
@[simp] theorem store_regWord (s : State) (a : Int) (v : Word) (i : Reg) :
    (s.store a v).regWord i = s.regWord i := rfl

@[simp] theorem writeReg_fetch (s : State) (i : Reg) (v : Int) :
    (s.writeReg i v).fetch = s.fetch := fetch_congr _ _ (by simp) (by simp)

@[simp] theorem store_fetch (s : State) (a : Int) (v : Word) : (s.store a v).fetch = s.fetch := rfl

end Sys2Proof.Machine
end

