-- ==== Sys2Proof/Laws/Registers.lean ====
section
/-!
SUPPORT. What a register write does to every register, and what wrapping does to a number.
-/

namespace Sys2Proof.Machine

@[simp] theorem regWord_zero (s : State) : s.regWord 0 = 0 := rfl

@[simp] theorem x_zero (s : State) : s.x 0 = 0 := rfl

/-- Every register after a write: the written one holds the wrapped value, unless it is register 0. -/
theorem regWord_writeReg (s : State) (i : Reg) (v : Int) (r : Reg) :
    (s.writeReg i v).regWord r = if r = i ∧ i ≠ 0 then wrap32 v else s.regWord r := by
  unfold State.writeReg State.regWord
  by_cases hi : i = 0
  · simp [hi]
  · by_cases hr : r = i
    · subst hr; simp [hi]
    · have : (i : Nat) ≠ r := fun h => hr (Fin.ext h.symm)
      simp [hi, hr, this]

theorem x_writeReg_self (s : State) (i : Reg) (v : Int) (hi : i ≠ 0) :
    (s.writeReg i v).x i = (wrap32 v).toInt := by simp [State.x, regWord_writeReg, hi]

theorem x_writeReg_other (s : State) (i : Reg) (v : Int) (r : Reg) (hr : r ≠ i) :
    (s.writeReg i v).x r = s.x r := by simp [State.x, regWord_writeReg, hr]

/-- The slot of register 0 is never written. -/
theorem writeReg_slot_zero (s : State) (i : Reg) (v : Int) : (s.writeReg i v).regs[0] = s.regs[0] := by
  unfold State.writeReg
  by_cases hi : i = 0
  · simp [hi]
  · have : (i : Nat) ≠ 0 := fun h => hi (Fin.ext h)
    simp [hi, this]

/-- Wrapping the reading of a 32-bit pattern gives the pattern back. -/
@[simp] theorem wrap32_toInt (w : Word) : wrap32 w.toInt = w := BitVec.ofInt_toInt

/-- The wrapped value is an `int32`, and it differs from the value by a multiple of 2 to the 32. -/
theorem wrap32_range_and_residue (v : Int) :
    (-2147483648 ≤ (wrap32 v).toInt ∧ (wrap32 v).toInt ≤ 2147483647)
      ∧ (4294967296 : Int) ∣ (wrap32 v).toInt - v := by
  have h : (wrap32 v).toInt = v.bmod 4294967296 := BitVec.toInt_ofInt ..
  refine ⟨by rw [h]; simp only [Int.bmod]; omega, ?_⟩
  exact Int.dvd_of_emod_eq_zero (Int.emod_eq_emod_iff_emod_sub_eq_zero.1 (h ▸ Int.bmod_emod))

/-- Wrapping leaves an `int32` as it is. -/
theorem toInt_wrap32 (v : Int) (h : InInt32 v) : (wrap32 v).toInt = v := by
  have := wrap32_range_and_residue v
  obtain ⟨h1, h2⟩ := h
  omega

/-- A bitwise operation on two registers is that operation on their patterns. -/
@[simp] theorem wrap32_bitwise (f : Word → Word → Word) (v w : Word) :
    wrap32 (bitwise f v.toInt w.toInt) = f v w := by simp [bitwise]

/-- The outcome of a comparison is an `int32`. -/
@[simp] theorem wrap32_lessThan (a b : Int) : (wrap32 (lessThan a b)).toInt = lessThan a b :=
  toInt_wrap32 _ (by unfold lessThan; split <;> decide)

/-- The shift amount of a register is the low five bits of its pattern. -/
theorem shiftAmount_toInt (w : Word) : shiftAmount w.toInt = (w.extractLsb' 0 5).toNat := by
  simp only [shiftAmount, BitVec.extractLsb'_toNat, BitVec.toInt_eq_toNat_cond, Nat.shiftRight_zero]
  split <;> omega

end Sys2Proof.Machine
end

