-- ==== Sys2Proof/Laws/Step.lean ====
section
/-!
SUPPORT. Everything an instruction can do to the state, and everything a step can do.
-/

namespace Sys2Proof.Machine

/-- What an instruction does before it completes: at most one register but register 0, or one cell
with its notification. -/
structure Effect (s u : State) (before : List Event) : Prop where
  pc : u.pc = s.pc
  halted : u.halted = s.halted
  prog : u.prog = s.prog
  zeroSlot : u.regs[0] = s.regs[0]
  events : u.events = s.events ++ before
  memory : (before = [] ∧ u.mem = s.mem)
    ∨ ∃ a v, u.mem = memWrite s.mem a v ∧ before = [.memoryChanged u.mem]

theorem effect_refl (s : State) : Effect s s [] :=
  ⟨rfl, rfl, rfl, rfl, by simp, .inl ⟨rfl, rfl⟩⟩

theorem effect_writeReg (s : State) (i : Reg) (v : Int) : Effect s (s.writeReg i v) [] :=
  ⟨by simp, by simp, by simp, writeReg_slot_zero s i v, by simp, .inl ⟨rfl, by simp⟩⟩

theorem effect_store (s : State) (a : Int) (v : Word) :
    Effect s (s.store a v) [.memoryChanged (memWrite s.mem a v)] :=
  ⟨rfl, rfl, rfl, rfl, rfl, .inr ⟨a, v, rfl, rfl⟩⟩

/-- An instruction is an `OPFAULT` and takes the failure path, or it has an `Effect` and completes;
an `UNKNOWN` read from a word also uses up a free value. -/
theorem exec_cases (i : Instr) (s : State) :
    (∃ cause, i = .opfault cause ∧ exec i s = .next (s.raiseExecFault cause))
      ∨ (∃ u before code ann, (∀ cause, i ≠ .opfault cause) ∧ Effect s u before
          ∧ exec i s = .next (u.complete code ann))
      ∨ i = .unknown none
        ∧ exec i s = .next (s.complete (Config.lostCode s.freeIndex) .none).useFree := by
  cases i with
  | opfault cause => exact .inl ⟨cause, rfl, rfl⟩
  | unknown m =>
    cases m with
    | none => exact .inr (.inr ⟨rfl, rfl⟩)
    | some m => exact .inr (.inl ⟨s, [], _, _, by simp, effect_refl s, rfl⟩)
  | beq => exact .inr (.inl ⟨s, [], _, _, by simp, effect_refl s, rfl⟩)
  | print rs => exact .inr (.inl ⟨s, [], _, _, by simp, effect_refl s, rfl⟩)
  | sw rs2 rs1 offset => exact .inr (.inl ⟨_, _, _, _, by simp, effect_store s _ _, rfl⟩)
  | _ => exact .inr (.inl ⟨_, _, _, _, by simp, effect_writeReg s _ _, rfl⟩)

/-- A step is one of five things: nothing on a halted machine, a fetch-miss, a refusal of the record,
the failure path, or an instruction that completes. -/
theorem step_cases (s : State) :
    (s.halted = true ∧ step s = .next s.haltedStep)
      ∨ (s.halted = false ∧ s.fetch = none ∧ step s = .next s.fetchMiss)
      ∨ ∃ r, s.halted = false ∧ s.fetch = some r
        ∧ ((∃ e, decodeSource r.source = .error e ∧ step s = .refused (.undecodable e))
          ∨ ∃ i, decodeSource r.source = .ok i ∧ step s = exec i s) := by
  unfold step stepWith
  cases hh : s.halted with
  | true => exact .inl ⟨rfl, by simp⟩
  | false =>
    refine .inr ?_
    cases hf : s.fetch with
    | none => exact .inl ⟨rfl, rfl, by simp⟩
    | some r =>
      refine .inr ⟨r, rfl, rfl, ?_⟩
      cases hd : decodeSource r.source with
      | error e => exact .inl ⟨e, rfl, by simp [hd]⟩
      | ok i => exact .inr ⟨i, rfl, by simp [hd]⟩

/-- A run of `n + 1` steps goes on from the next state of its first step. -/
theorem run_succ_next (n : Nat) (s t : State) (h : step s = .next t) :
    Host.Core.run Sys2Proof.core (n + 1) s = Host.Core.run Sys2Proof.core n t := by
  have h' : Sys2Proof.core.step s = .next t := h
  simp only [Host.Core.run, h']

/-- A run whose first step is refused is refused. -/
theorem run_succ_refused (n : Nat) (s : State) (r : Refusal) (h : step s = .refused r) :
    Host.Core.run Sys2Proof.core (n + 1) s = .refused r := by
  have h' : Sys2Proof.core.step s = .refused r := h
  simp only [Host.Core.run, h']

end Sys2Proof.Machine
end

