-- ==== Sys2Proof/Laws/Text.lean ====
section
/-!
SUPPORT. What cutting a text into pieces gives, for the lines and the tokens of 30_encoding.md R82,
R83, and what taking characters off an end of a list leaves, for `trim`.
-/

namespace Sys2Proof

/-- A text without a character that cuts is one piece. -/
theorem piecesBetween_of_forall_not (p : Char → Bool) (s : Text) (h : ∀ c ∈ s, p c = false) :
    piecesBetween p s = [s] := by
  induction s with
  | nil => rfl
  | cons c s ih =>
    simp only [List.forall_mem_cons] at h
    simp [piecesBetween, h.1, ih h.2]

/-- The first piece ends at the first character that cuts; the pieces of the rest follow. -/
theorem piecesBetween_append_cons (p : Char → Bool) (s : Text) (c : Char) (rest : Text)
    (h : ∀ d ∈ s, p d = false) (hc : p c = true) :
    piecesBetween p (s ++ c :: rest) = s :: piecesBetween p rest := by
  induction s with
  | nil => simp [piecesBetween, hc]
  | cons d s ih =>
    simp only [List.forall_mem_cons] at h
    simp [piecesBetween, h.1, ih h.2]

/-- Characters of a class in front are dropped up to the first one that is not of the class. -/
theorem dropWhile_append_of_head (p : Char → Bool) (s body : Text) (hs : ∀ c ∈ s, p c = true)
    (hb : ∀ c, body.head? = some c → p c = false) : (s ++ body).dropWhile p = body := by
  induction s with
  | nil =>
    cases body with
    | nil => rfl
    | cons c body => simp [hb c rfl]
  | cons c s ih =>
    simp only [List.forall_mem_cons] at hs
    simp [hs.1, ih hs.2]

end Sys2Proof
end

