-- ==== Sys2Proof/Tests/Slice0.lean ====
section
/-!
SUPPORT. Tests of the model against the spec's own vectors (95_test_vectors.md), the ill-formed terms
that the well-formedness check refuses, and a witness for the hypotheses of every obligation that has
some.
-/

namespace Sys2Proof.Tests

open Sys2Proof Sys2Proof.Machine

/-! ### Helpers -/

/-- What `f` reads from the next state of an outcome. -/
def reads {α : Type} (f : State → α) : Host.Outcome State Fault Refusal → Option α
  | .next t => some (f t)
  | .fault _ => none
  | .refused _ => none

/-- Why an outcome is a refusal. -/
def refusalOf : Host.Outcome State Fault Refusal → Option Refusal
  | .next _ => none
  | .fault _ => none
  | .refused r => some r

/-- A running machine at pc 0 with no program, the given registers and the given cells. -/
def running (regs : List (Reg × Int)) (mem : Memory) : State :=
  regs.foldl (fun s p => s.writeReg p.1 p.2) { State.reset with halted := false, mem := mem }

/-- The result in `x3` of an instruction on `x1 = a`, `x2 = b`. -/
def result3 (i : Instr) (a b : Int) : Option Int :=
  reads (fun t => t.x 3) (exec i (running [(1, a), (2, b)] []))

/-- The start state of 95_test_vectors.md V3. -/
def startV3 : State := running [(1, 8), (2, -7), (3, 2147483647)] [(4, 11)]

/-- The start state of 95_test_vectors.md V4. -/
def startV4 : State := running [(5, 375), (7, -1)] []

/-- The machine after a load of a text, or the power-on machine if the text is refused. -/
def loadedText (text : String) : State :=
  match loadProgram text.toList State.reset with
  | .next t => t
  | .fault _ => State.reset
  | .refused _ => State.reset

/-- The decoder on a line written as a string. -/
def line (s : String) : Except DecodeRefusal Instr := decodeText s.toList

/-! ### Well-formedness: a term for each check, which the check refuses -/

/-- No token is empty (30_encoding.md R83). -/
theorem test_wf_empty_mnemonic : (Instr.unknown (some [])).wellFormed = false := by decide
/-- A mnemonic is in upper case (30_encoding.md R84). -/
theorem test_wf_lower_case : (Instr.unknown (some "foo".toList)).wellFormed = false := by decide
/-- A token holds no separator, no whitespace, no LF and only ASCII (30_encoding.md R83, R104). -/
theorem test_wf_separators : [' ', '\t', '\n', ',', '(', ')', Char.ofNat 128].all
    (fun c => !(Instr.unknown (some ['F', c])).wellFormed) = true := by decide
/-- A recognised mnemonic is no `UNKNOWN` (30_encoding.md R92). -/
theorem test_wf_recognised : (Instr.unknown (some "PRINT".toList)).wellFormed = false := by decide
/-- Nor is the branch-equal name, which has a constructor of its own (30_encoding.md R94). -/
theorem test_wf_branch_equal : (Instr.unknown (some "BEQ".toList)).wellFormed = false := by decide
/-- 95_test_vectors.md V4, V5: `LOOP:`, `.DATA`, `//` and `ADDS` are unrecognised mnemonics. -/
theorem test_wf_accepts : ["LOOP:", ".DATA", "//", "ADDS", "X"].all
    (fun m => (Instr.unknown (some m.toList)).wellFormed) = true := by decide
/-- An immediate outside `int32` has no word (30_encoding.md R101). -/
theorem test_no_word : (Instr.addi 1 0 2147483648).hasWord = false
    ∧ (Instr.lw 1 0 (-2147483649)).hasWord = false ∧ encode (.sw 1 0 2147483648) = none := by decide
/-- The two ends of `int32` have one. -/
theorem test_word_ends : (Instr.addi 1 0 2147483647).hasWord = true
    ∧ (Instr.slti 1 0 (-2147483648)).hasWord = true := by decide

/-! ### Words, written out from 30_encoding.md R98, R99: imm, zeros, c, b, a, op7 -/

theorem test_word_add :
    decodeWord (0#32 ++ 0#10 ++ 0b00010#5 ++ 0b00001#5 ++ 0b00011#5 ++ 0b0000001#7) = .add 3 1 2 := by
  decide
theorem test_word_sub :
    decodeWord (0#32 ++ 0#10 ++ 0b00001#5 ++ 0b00010#5 ++ 0b00100#5 ++ 0b0000010#7) = .sub 4 2 1 := by
  decide
theorem test_word_and :
    decodeWord (0#32 ++ 0#10 ++ 0b01001#5 ++ 0b01000#5 ++ 0b01010#5 ++ 0b0000011#7) = .and 10 8 9 := by
  decide
theorem test_word_or :
    decodeWord (0#32 ++ 0#10 ++ 0b01001#5 ++ 0b01000#5 ++ 0b01011#5 ++ 0b0000100#7) = .or 11 8 9 := by
  decide
theorem test_word_slt :
    decodeWord (0#32 ++ 0#10 ++ 0b00001#5 ++ 0b00010#5 ++ 0b00110#5 ++ 0b0000101#7) = .slt 6 2 1 := by
  decide
theorem test_word_mult :
    decodeWord (0#32 ++ 0#10 ++ 0b00010#5 ++ 0b00001#5 ++ 0b00101#5 ++ 0b0000110#7) = .mult 5 1 2 := by
  decide
theorem test_word_sll :
    decodeWord (0#32 ++ 0#10 ++ 0b11110#5 ++ 0b10000#5 ++ 0b00001#5 ++ 0b0000111#7) = .sll 1 16 30 := by
  decide
theorem test_word_addi :
    decodeWord (0b1111#32 ++ 0#10 ++ 0#5 ++ 0b00000#5 ++ 0b00001#5 ++ 0b0001000#7) = .addi 1 0 15 := by
  decide
theorem test_word_slti :
    decodeWord (0xFFFFFFFB#32 ++ 0#10 ++ 0#5 ++ 0b00010#5 ++ 0b00111#5 ++ 0b0001001#7)
      = .slti 7 2 (-5) := by decide
theorem test_word_lw :
    decodeWord (0b100#32 ++ 0#10 ++ 0#5 ++ 0b00010#5 ++ 0b00011#5 ++ 0b0001010#7) = .lw 3 2 4 := by
  decide
theorem test_word_sw :
    decodeWord (0b100#32 ++ 0#10 ++ 0#5 ++ 0b00010#5 ++ 0b00001#5 ++ 0b0001011#7) = .sw 1 2 4 := by
  decide
theorem test_word_print :
    decodeWord (0#32 ++ 0#10 ++ 0#5 ++ 0b00000#5 ++ 0b00101#5 ++ 0b0001100#7) = .print 5 := by decide
theorem test_word_beq : decodeWord (0#57 ++ 0b0001101#7) = .beq := by decide
theorem test_word_unknown : decodeWord (0#57 ++ 0b0000000#7) = .unknown none
    ∧ decodeWord (0#57 ++ 0b1111110#7) = .unknown none := by decide
theorem test_word_opfault : decodeWord (0#57 ++ 0b1111111#7) = .opfault .badImmediate := by decide
/-- 95_test_vectors.md S2, S3, P4, P5: the words of whole lines. -/
theorem test_encode_lines : encode (.addi 1 0 15) = some 0x0000000F00000088#64
    ∧ encode (.mult 5 1 2) = some 0x0000000000041286#64
    ∧ encode (.sw 1 2 4) = some 0x000000040000208B#64
    ∧ encode (.lw 3 2 4) = some 0x000000040000218A#64
    ∧ encode (.addi 12 1 (-12)) = some 0xFFFFFFF400001608#64
    ∧ encode (.print 12) = some 0x000000000000060C#64
    ∧ encode (.opfault .missingOperand) = some 0x000000000000007F#64
    ∧ encode (.unknown (some "NOP".toList)) = some 0#64 := by decide
/-- The host's reading of a table word: the opcode table's `match` value of `LW`. -/
theorem test_table_word : decodeTableWord 64 0x0A = some (.lw 0 0 0) := by decide

/-! ### Lines: 95_test_vectors.md V2, V4, V5 -/

/-- V5: separators, case and register tokens. -/
theorem test_line_add : line "add   x3 ,x1,  x2" = .ok (.add 3 1 2)
    ∧ line "ADD(x3)(x1)(x2)" = .ok (.add 3 1 2) ∧ line "ADD X2,(x1),r1" = .ok (.add 2 1 1)
    ∧ line "ADD x03, x-1, 2" = .ok (.add 3 1 2) := by decide
/-- V5: a `#` later in a line is a token like any other. -/
theorem test_line_hash : line "ADD x3, x1, x12 # x4" = .ok (.add 3 1 12)
    ∧ line "ADD x3, x1 # x2" = .ok (.add 3 1 0) := by decide
/-- V5, V2: immediates, and the digits of a register token from its whole length. -/
theorem test_line_addi : line "ADDI $1 $0 7" = .ok (.addi 1 0 7)
    ∧ line "ADDI x1y2, x1, -0012" = .ok (.addi 12 1 (-12))
    ∧ line "ADDI x1, x0, 4294967296" = .ok (.addi 1 0 4294967296) := by decide
/-- V5, P4: the offset is the third operand token, and `offset(base)` faults. -/
theorem test_line_lw : line "LW x3,(x2)4" = .ok (.lw 3 2 4)
    ∧ line "lw x3, 0(x1)" = .ok (.opfault .badImmediate) := by decide
/-- P4: the value register comes first, and extra tokens are not read. -/
theorem test_line_sw : line "Sw x2 (x1) 0 # store 14 at 7" = .ok (.sw 2 1 0) := by decide
/-- V4: `PRINT 7` names register 7. -/
theorem test_line_print : line "PRINT 7" = .ok (.print 7) ∧ line "print zero" = .ok (.print 0)
    ∧ line "PRINT x5 x7 junk" = .ok (.print 5) := by decide
/-- V4: no operand of an unrecognised mnemonic is read. -/
theorem test_line_unknown : line "FOO x99, abc" = .ok (.unknown (some "FOO".toList))
    ∧ line "loop:" = .ok (.unknown (some "LOOP:".toList))
    ∧ line "ADDIx1" = .ok (.unknown (some "ADDIX1".toList)) := by decide
theorem test_line_beq : line "BEQ a b c d e" = .ok .beq ∧ line "beq" = .ok .beq := by decide
/-- V1, V3, V4, P5: a missing operand. -/
theorem test_line_missing : line "ADD x1, x2" = .ok (.opfault .missingOperand)
    ∧ line "PRINT" = .ok (.opfault .missingOperand)
    ∧ line "SW x1, x2" = .ok (.opfault .missingOperand) := by decide
/-- V1, V5, 30_encoding.md R104: what the spec refuses. -/
theorem test_line_refused : line "ADD x1, x2, x32" = .error .registerOutOfRange
    ∧ line "ADD x1, x2, x31" = .ok (.add 1 2 31) ∧ line "( )" = .error .lineWithoutToken
    ∧ decodeText ['N', Char.ofNat 233] = .error .nonAsciiText := by decide
/-- V2: the tokens with a value. -/
theorem test_imm_value : (["15", "0015", "-7", "-0", "2147483647", "-2147483648"].map
      fun t => parseImm t.toList)
    = [.value 15, .value 15, .value (-7), .value 0, .value 2147483647, .value (-2147483648)] := by
  decide
/-- V2: the tokens that fault. -/
theorem test_imm_bad : (["abc", "x2", "#", "-", "--1", "+", ".5", "$4"].all
    fun t => parseImm t.toList == .notInteger) = true := by decide
/-- V2: the tokens that are refused. -/
theorem test_imm_refused : (["12abc", "0x10", "1.5", "1e3", "5#", "+5", "7-"].all
    fun t => parseImm t.toList == .partlyNumeric) = true := by decide

/-- 30_encoding.md R83: the four spellings of its example have the same four tokens. -/
theorem test_tokens : ["LW x3, x2, 4", "LW x3 x2 4", "LW x3,(x2)4", "LW(x3)(x2)(4)"].map
      (fun s => tokens s.toList)
    = List.replicate 4 ["LW".toList, "x3".toList, "x2".toList, "4".toList] := by decide

/-! ### Load -/

/-- V5, address assignment: comments and blank lines take no address. -/
theorem test_load_addresses :
    (loadedText "\n# c\nADD x1,x0,x0\n\n  # d\nNOP\r\nPRINT x1\n").prog.map
        (fun r => (r.address, r.source, r.mnemonic))
      = [(0, .text "ADD x1,x0,x0".toList, some "ADD".toList), (4, .text "NOP".toList, some "NOP".toList),
          (8, .text "PRINT x1".toList, some "PRINT".toList)] := by decide
/-- 30_encoding.md R82, R104: both ends are trimmed, a CR before the LF too, and the last line needs no LF. -/
theorem test_accepted_lines : acceptedLines "  NOP\t\r\n \r\n\tPRINT x1  ".toList
    = ["NOP".toList, "PRINT x1".toList] := by decide
/-- S6: a text with no instruction leaves the machine halted. -/
theorem test_load_nothing : (loadedText "# only a comment\n\n").halted = true
    ∧ (loadedText "NOP").halted = false := by decide
/-- V1: an out-of-range register refuses the program, reached or not. -/
theorem test_load_refused :
    refusalOf (loadProgram "PRINT\nADD x1, x2, x32".toList State.reset)
      = some (.undecodable .registerOutOfRange) := by decide
/-- 30_encoding.md R102: words at 0, 4, and 10_state.md R38. -/
theorem test_load_words : (loadWords [0x8C#64, 0x0D#64] State.reset).prog.map (·.address) = [0, 4]
    ∧ (loadWords [0x8C#64] State.reset).halted = false
    ∧ (loadWords [] State.reset).halted = true := by decide
/-- 10_state.md R38: power-on is halted at pc 0 with no program. -/
theorem test_reset : State.reset.halted = true ∧ State.reset.pc = 0 ∧ State.reset.prog = []
    ∧ State.reset.x 31 = 0 := by decide

/-! ### One step of each instruction: 95_test_vectors.md V1 to V4 -/

theorem test_add_wraps : result3 (.add 3 1 2) 2147483647 1 = some (-2147483648)
    ∧ result3 (.add 3 1 2) (-2147483648) (-1) = some 2147483647
    ∧ result3 (.add 3 1 2) 15 25 = some 40 := by decide
/-- V1: the destination is also both sources, and register 0 discards. -/
theorem test_add_registers :
    reads (fun t => t.x 1) (exec (.add 1 1 1) (running [(1, 5)] [])) = some 10
    ∧ reads (fun t => (t.x 0, t.x 1, t.pc)) (exec (.add 0 1 1) (running [(1, 5)] []))
      = some (0, 5, 4) := by decide
theorem test_sub_wraps : result3 (.sub 3 1 2) 25 15 = some 10
    ∧ result3 (.sub 3 1 2) 0 (-2147483648) = some (-2147483648)
    ∧ result3 (.sub 3 1 2) 2147483647 (-1) = some (-2147483648) := by decide
theorem test_and : result3 (.and 3 1 2) (-16) 255 = some 240
    ∧ result3 (.and 3 1 2) (-2147483648) 2147483647 = some 0 := by decide
theorem test_or : result3 (.or 3 1 2) (-16) 5 = some (-11)
    ∧ result3 (.or 3 1 2) (-2147483648) 2147483647 = some (-1) := by decide
theorem test_slt_signed : result3 (.slt 3 1 2) (-1) 1 = some 1 ∧ result3 (.slt 3 1 2) 5 5 = some 0
    ∧ result3 (.slt 3 1 2) 2147483647 (-2147483648) = some 0 := by decide
theorem test_mult_wraps : result3 (.mult 3 1 2) 46341 46341 = some (-2147479015)
    ∧ result3 (.mult 3 1 2) 123456789 987654321 = some (-67153019)
    ∧ result3 (.mult 3 1 2) (-2147483648) (-1) = some (-2147483648) := by decide
theorem test_sll_amount : result3 (.sll 3 1 2) 1 32 = some 1 ∧ result3 (.sll 3 1 2) 1 33 = some 2
    ∧ result3 (.sll 3 1 2) 1 (-1) = some (-2147483648)
    ∧ result3 (.sll 3 1 2) 7 (-2147483648) = some 7 := by decide
theorem test_sll_lost_bits : result3 (.sll 3 1 2) 305419896 4 = some 591751040
    ∧ result3 (.sll 3 1 2) 3 31 = some (-2147483648) := by decide
theorem test_addi_wraps : result3 (.addi 3 1 (-1)) (-2147483648) 0 = some 2147483647
    ∧ result3 (.addi 3 1 4294967296) 7 0 = some 7
    ∧ result3 (.addi 3 1 (-4294967297)) 0 0 = some (-1) := by decide
theorem test_slti_exact : result3 (.slti 3 1 3) (-5) 0 = some 1
    ∧ result3 (.slti 3 1 4294967296) 2147483647 0 = some 1
    ∧ result3 (.slti 3 1 (-2147483649)) (-2147483648) 0 = some 0 := by decide
/-- V3: a present cell, an absent one that stays absent, and `rd = rs1`. -/
theorem test_lw : reads (fun t => t.x 5) (exec (.lw 5 1 (-4)) startV3) = some 11
    ∧ reads (fun t => (t.x 5, t.mem)) (exec (.lw 5 1 0) startV3) = some (0, [(4, 11)])
    ∧ reads (fun t => t.x 1) (exec (.lw 1 1 (-4)) startV3) = some 11 := by decide
/-- V3: `rd = 0` still reads, and the address is not wrapped. -/
theorem test_lw_annotation :
    reads State.events (exec (.lw 0 1 (-4)) startV3) = some [.trace 0 none (.load 11 4)]
    ∧ reads State.events (exec (.lw 5 3 1) startV3) = some [.trace 0 none (.load 0 2147483648)] := by
  decide
/-- V3: a cell holding 0 exists, and a negative address comes first. -/
theorem test_sw_cells : reads State.mem (exec (.sw 0 1 0) startV3) = some [(4, 11), (8, 0)]
    ∧ reads State.mem (exec (.sw 1 2 0) startV3) = some [(-7, 8), (4, 11)]
    ∧ reads State.mem (exec (.sw 2 1 (-4)) startV3) = some [(4, -7)] := by decide
/-- V3: the notification, then the trace. -/
theorem test_sw_events : reads State.events (exec (.sw 1 3 1) startV3)
    = some [.memoryChanged [(4, 11), (2147483648, 8)], .trace 0 none (.store 8 2147483648)] := by decide
/-- V4: `PRINT x5`, and only the pc changes. -/
theorem test_print : reads State.events (exec (.print 5) startV4) = some [.trace 0 none (.print 375)]
    ∧ reads (fun t => (t.pc, t.regs)) (exec (.print 7) startV4) = some (4, startV4.regs) := by decide
/-- V4: a no-op. -/
theorem test_beq : reads (fun t => (t.pc, t.halted, t.regs)) (exec .beq startV4)
      = some (4, false, startV4.regs)
    ∧ reads (fun t => (t.mem, t.events)) (exec .beq startV4)
      = some ([], [.trace 0 none .none]) := by decide
/-- V4: a no-op. -/
theorem test_unknown :
    reads (fun t => (t.pc, t.halted, t.regs)) (exec (.unknown (some "FOO".toList)) startV4)
      = some (4, false, startV4.regs)
    ∧ reads (fun t => (t.mem, t.events)) (exec (.unknown (some "FOO".toList)) startV4)
      = some ([], [.trace 0 none .none]) := by decide
/-- The same for an `UNKNOWN` read from a word. -/
theorem test_unknown_word :
    reads (fun t => (t.pc, t.regs, t.freeIndex)) (exec (.unknown none) startV4)
      = some (4, startV4.regs, 1) := by decide
/-- S5: the failure path. -/
theorem test_opfault :
    reads (fun t => (t.pc, t.halted, t.events, t.result)) (exec (.opfault .missingOperand) startV4)
      = some (0, true, [.error 0 .missingOperand], none) := by decide

/-! ### One step of the machine -/

/-- S5: the second line faults, with its pc. -/
theorem test_step_fault :
    reads (fun t => (t.pc, t.halted, t.events)) (step { loadedText "NOP\nADDI x2,x0,abc" with pc := 4 })
      = some (4, true, [.error 4 .badImmediate]) := by decide
/-- S4: the end of the program. -/
theorem test_step_fetch_miss :
    reads (fun t => (t.pc, t.halted, t.events)) (step { loadedText "NOP" with pc := 4 })
      = some (4, true, [.programEnd]) := by decide
/-- 40_fetch_decode_dispatch.md R121: nothing happens on a halted machine. -/
theorem test_step_halted : reads id (step State.reset) = some State.reset := by decide
/-- S2: the trace event carries the pc and the source text. -/
theorem test_step_trace :
    reads (fun t => (t.x 1, t.pc, t.events)) (step (loadedText "ADDI x1,x0,15"))
      = some (15, 4, [.trace 0 (some (.text "ADDI x1,x0,15".toList)) .none]) := by decide
/-- The word placed for the host runs as the first instruction after reset. -/
theorem test_step_placed_word :
    reads (fun t => (t.x 1, t.pc)) (step (State.reset.withFetchWord 64 0x0000000F00000088))
      = some (15, 4) := by decide
/-- S6: the display string of a mnemonic without an entry. -/
theorem test_display_default : (bitPattern Config.defaultCode).length = 31
    ∧ bitPattern Config.defaultCode = "??????? ????? ????? ??? 0000000".toList := by decide
/-- 46_host_interface.md R204: absent cells are absent, present ones ascending. -/
theorem test_accessors : memoryContents startV3 = [(4, 11)] ∧ readRegister startV3 2 = -7
    ∧ programCounter startV3 = 0 ∧ isHalted startV3 = false := by decide
/-- 70_reset_and_hazards.md R258: both commands at once. -/
theorem test_both_commands :
    refusalOf (commandCycle (some (.words [])) true State.reset) = some .simultaneousCommands := by decide

/-! ### Witnesses: the hypotheses of each obligation are met, clause by clause -/

/-- The machine that has loaded the words `ws`, moved to a pc and a flag. -/
def wordsAt (ws : List Ciw) (pc : Nat) (halted : Bool) : State :=
  { loadWords ws State.reset with pc := pc, halted := halted }

theorem witness_DecodeOfEncodeKeepsTheInstruction :
    encode (.sll 31 31 31) = some 0x00000000003FFF87#64
      ∧ encode (.slti 31 0 (-2147483648)) = some 0x8000000000000F89#64
      ∧ encode (.unknown (some "FOO".toList)) = some 0#64
      ∧ encode (.opfault .missingOperand) = some 0x7F#64 := by decide

/-- The ends of both ranges of unassigned codes; then words that differ in every bit their row ignores:
the row of three fields, of an immediate, of one field and of none. -/
theorem witness_WordDecodeIsLenient :
    ([0x00#64, 0x0E#64, 0x7E#64].all fun w =>
        w.toNat % 128 = 0 ∨ (14 ≤ w.toNat % 128 ∧ w.toNat % 128 ≤ 126)) = true
      ∧ ([(0x00041181#64, 0xFFFFFFFFFFC41181#64), (0x500000088#64, 0x5FFFE0088#64),
            (0x8C#64, 0xFFFFFFFFFFFFF08C#64), (0x0D#64, 0xFFFFFFFFFFFFFF8D#64)].all fun p =>
          p.1 ≠ p.2 ∧ p.1.extractLsb' 0 7 = p.2.extractLsb' 0 7
            ∧ ((p.1.extractLsb' 0 7).toNat ≤ 12 → p.1.extractLsb' 7 5 = p.2.extractLsb' 7 5)
            ∧ ((p.1.extractLsb' 0 7).toNat ≤ 11 → p.1.extractLsb' 12 5 = p.2.extractLsb' 12 5)
            ∧ ((p.1.extractLsb' 0 7).toNat ≤ 7 → p.1.extractLsb' 17 5 = p.2.extractLsb' 17 5)
            ∧ (8 ≤ (p.1.extractLsb' 0 7).toNat → (p.1.extractLsb' 0 7).toNat ≤ 11 →
                p.1.extractLsb' 32 32 = p.2.extractLsb' 32 32)) = true := by decide

/-- An `UNKNOWN`, an `OPFAULT` and an instruction that is neither. -/
theorem witness_EncodedInstructionRunsAlike :
    (encode (.unknown (some "FOO".toList)) = some 0#64
        ∧ ∃ t, exec (.unknown (some "FOO".toList)) startV4 = .next t)
      ∧ (encode (.opfault .missingOperand) = some 0x7F#64
        ∧ ∃ t, exec (.opfault .missingOperand) startV4 = .next t)
      ∧ encode (.print 5) = some 0x28C#64 ∧ ∃ t, exec (.print 5) startV4 = .next t :=
  ⟨⟨by decide, _, rfl⟩, ⟨by decide, _, rfl⟩, by decide, _, rfl⟩

/-- The characters beside the digits, and the two ends of the digits. -/
theorem witness_RegisterTokenReadsItsDigits :
    (∀ c ∈ ['/', ':'], ¬ ('0' ≤ c ∧ c ≤ '9')) ∧ ∀ c ∈ ['0', '9'], '0' ≤ c ∧ c ≤ '9' := by simp

theorem witness_ImmediateTokenHasThreeCases :
    (['0', '9'] ≠ [] ∧ ∀ c ∈ ['0', '9'], '0' ≤ c ∧ c ≤ '9')
      ∧ (¬ ('0' ≤ 'a' ∧ 'a' ≤ '9') ∧ 'a' ≠ '-' ∧ 'a' ≠ '+') ∧ ¬ ('0' ≤ '-' ∧ '-' ≤ '9')
      ∧ ('0' ≤ '1' ∧ '1' ≤ '9' ∧ ∃ c ∈ ['e', '3'], ¬ ('0' ≤ c ∧ c ≤ '9')) := by simp

/-- A mnemonic of each format, registers at both ends, and a token of each kind of immediate. -/
theorem witness_OperandsAreReadByPosition :
    (("SLL", Instr.sll) ∈ [("ADD", Instr.add), ("SUB", Instr.sub), ("AND", Instr.and),
        ("OR", Instr.or), ("SLT", Instr.slt), ("MULT", Instr.mult), ("SLL", Instr.sll)]
      ∧ upper "sll".toList = "SLL".toList ∧ resolveRegister "x31".toList = (31 : Reg).val
      ∧ resolveRegister "foo".toList = (0 : Reg).val)
    ∧ (("SW", Instr.sw) ∈ [("ADDI", Instr.addi), ("SLTI", Instr.slti), ("LW", Instr.lw),
        ("SW", Instr.sw)]
      ∧ upper "sw".toList = "SW".toList ∧ parseImm "-4".toList = .value (-4)
      ∧ parseImm "x2".toList = .notInteger ∧ parseImm "1e3".toList = .partlyNumeric)
    ∧ upper "Print".toList = "PRINT".toList :=
  ⟨⟨by simp, by decide, by decide, by decide⟩,
    ⟨by simp, by decide, by decide, by decide, by decide⟩, by decide⟩

/-- No operand token and two of them. -/
theorem witness_MissingOperandIsAFault :
    (upper "add".toList ∈ recognisedMnemonics ∧ upper "add".toList ≠ "PRINT".toList
        ∧ ([] : List Text).length < 3 ∧ ["x31".toList, "x2".toList].length < 3
        ∧ ∀ t ∈ ["x31".toList, "x2".toList], resolveRegister t < 32)
      ∧ upper "print".toList = "PRINT".toList := by decide

/-- Each of the three positions. -/
theorem witness_RegisterIndexAbove31IsRefused :
    (upper "print".toList ∈ recognisedMnemonics ∧ ["x32".toList][0]? = some "x32".toList
        ∧ 32 ≤ resolveRegister "x32".toList)
      ∧ (upper "lw".toList ∈ recognisedMnemonics ∧ upper "lw".toList ≠ "PRINT".toList
        ∧ ["x1".toList, "x99".toList][1]? = some "x99".toList ∧ 32 ≤ resolveRegister "x99".toList)
      ∧ upper "sll".toList ∈ recognisedMnemonics
        ∧ upper "sll".toList ∈ ["ADD", "SUB", "AND", "OR", "SLT", "MULT", "SLL"].map String.toList
        ∧ ["x1".toList, "x2".toList, "r32".toList][2]? = some "r32".toList
        ∧ 32 ≤ resolveRegister "r32".toList := by decide

theorem witness_UnrecognisedMnemonicReadsNoOperand :
    upper "beq".toList ∉ recognisedMnemonics ∧ upper "foo".toList ∉ recognisedMnemonics := by decide

theorem witness_SeparatorsAndCaseAreLoose :
    List.Forall₂ (fun c d : Char => c = d
        ∨ (c ∈ [' ', '\t', '\r', Char.ofNat 11, Char.ofNat 12, ',', '(', ')']
          ∧ d ∈ [' ', '\t', '\r', Char.ofNat 11, Char.ofNat 12, ',', '(', ')']))
        "LW(x3)".toList "LW x3,".toList
      ∧ "x3".toList ∈ tokens "LW(x3)".toList
      ∧ (∀ sep ∈ [' ', ')'],
          sep ∈ [' ', '\t', '\r', Char.ofNat 11, Char.ofNat 12, ',', '(', ')'])
      ∧ (['#', '4'] ≠ []
        ∧ ∀ c ∈ ['#', '4'], c ∉ [' ', '\t', '\r', Char.ofNat 11, Char.ofNat 12, ',', '(', ')'])
      ∧ (∀ c ∈ ['N', Char.ofNat 127], c.toNat < 128) ∧ ∃ c ∈ ['N', Char.ofNat 128], 128 ≤ c.toNat := by
  refine ⟨?_, by decide, by simp, ⟨by simp, by simp⟩, by simp, by simp⟩
  have h : "LW(x3)".toList = ['L', 'W', '(', 'x', '3', ')'] := by decide
  have h' : "LW x3,".toList = ['L', 'W', ' ', 'x', '3', ','] := by decide
  rw [h, h']
  decide

/-- A comment and an instruction; then whitespace around a body with a space inside, and a blank line. -/
theorem witness_LinesAreTakenInOrder : ('\n' ∉ " # NOP".toList ∧ '\n' ∉ "NOP\r".toList)
    ∧ (∀ c ∈ ['\t', Char.ofNat 12], c ∈ [' ', '\t', '\r', Char.ofNat 11, Char.ofNat 12])
    ∧ (∀ c, ['J', ' ', '0'].head? = some c → c ∉ [' ', '\t', '\r', Char.ofNat 11, Char.ofNat 12])
    ∧ (∀ c, ['J', ' ', '0'].getLast? = some c → c ∉ [' ', '\t', '\r', Char.ofNat 11, Char.ofNat 12])
    ∧ ∀ c ∈ [' ', '\r'], c ∈ [' ', '\t', '\r', Char.ofNat 11, Char.ofNat 12] := by
  refine ⟨by decide, by simp, ?_, ?_, by simp⟩ <;>
  · rintro c ⟨⟩
    simp

/-- A text with a meaning and one without. -/
theorem witness_LoadRefusesExactlyTheUndecodable :
    (∃ t, loadProgram "NOP".toList State.reset = .next t)
      ∧ ¬ ∃ t, loadProgram "ADD x32".toList State.reset = .next t := by
  refine ⟨⟨loadedText "NOP", by rfl⟩, ?_⟩
  have h : refusalOf (loadProgram "ADD x32".toList State.reset)
      = some (.undecodable .registerOutOfRange) := by decide
  rintro ⟨t, ht⟩
  rw [ht] at h
  cases h

theorem witness_loads : (∃ t, load (.text "\nPRINT x1".toList) startV3 = .next t)
    ∧ ∃ t, load (.words [0x8C#64]) startV3 = .next t :=
  ⟨⟨_, rfl⟩, _, rfl⟩

/-- Both kinds of load; the program is not empty. -/
theorem witness_LoadGivesFreshDefaults : (∃ t, load (.text "\nPRINT x1".toList) startV3 = .next t)
    ∧ ∃ t, load (.words [0x8C#64]) startV3 = .next t := witness_loads

theorem witness_LoadForgetsThePast : (∃ t, load (.text "\nPRINT x1".toList) startV3 = .next t)
    ∧ ∃ t, load (.words [0x8C#64]) startV3 = .next t := witness_loads

theorem witness_LoadedInstructionsAreWellFormed :
    ∃ t, loadProgram "foo".toList State.reset = .next t
      ∧ ⟨0, .text "foo".toList, some "FOO".toList⟩ ∈ t.prog :=
  ⟨loadedText "foo", by rfl, by decide⟩

theorem witness_RegisterWriteIsGatedAndWraps : (31 : Reg) ≠ 0 ∧ (1 : Reg) ≠ 31 := by decide

theorem witness_HaltedStepIsTheIdentity : State.reset.halted = true
    ∧ (wordsAt [0x7F#64] 0 true).halted = true := by decide

/-- The state of the second clause meets the invariant by `witness_inv_end`. -/
theorem witness_FetchMissHalts : (wordsAt [0x8C#64] 4 false).halted = false
    ∧ ∀ r ∈ (wordsAt [0x8C#64] 4 false).prog, r.address ≠ (wordsAt [0x8C#64] 4 false).pc := by decide

theorem witness_FaultingStepChangesOnlyHalted :
    (wordsAt [0x7F#64] 0 false).halted = false
      ∧ (wordsAt [0x7F#64] 0 false).fetch = some ⟨0, .word 0x7F#64, none⟩
      ∧ decodeSource (.word 0x7F#64) = .ok (.opfault .badImmediate)
      ∧ (loadedText "PRINT").halted = false
      ∧ (loadedText "PRINT").fetch = some ⟨0, .text "PRINT".toList, some "PRINT".toList⟩
      ∧ decodeSource (.text "PRINT".toList) = .ok (.opfault .missingOperand) := by decide

/-- A record that decodes, and one that no load makes. -/
theorem witness_StepRunsTheDecodedInstruction :
    ((loadedText "PRINT x5").halted = false
        ∧ (loadedText "PRINT x5").fetch = some ⟨0, .text "PRINT x5".toList, some "PRINT".toList⟩
        ∧ decodeSource (.text "PRINT x5".toList) = .ok (.print 5))
      ∧ { startV4 with prog := [⟨0, .text "PRINT x32".toList, none⟩] }.fetch
          = some ⟨0, .text "PRINT x32".toList, none⟩
        ∧ decodeSource (.text "PRINT x32".toList) = .error .registerOutOfRange := by decide

/-- A running machine before its first instruction meets the invariant. -/
theorem witness_inv_start : Inv (wordsAt [0x8C#64, 0x7F#64] 0 false) where
  memWf := by decide
  zeroSlot := by decide
  addresses := by decide
  decodes := by
    intro r hr
    fin_cases hr
    · exact ⟨⟨.print 1, by decide⟩, by decide⟩
    · exact ⟨⟨.opfault .badImmediate, by decide⟩, by decide⟩
  pcRange := ⟨0, by decide, by decide⟩
  passed := fun k _ hk => absurd hk (Nat.not_lt_zero _)
  emptyHalted := by decide
  haltedAt := fun h => absurd h (by decide)
  haltedResult := by decide

/-- A machine whose next record faults meets it. -/
theorem witness_inv_fault : Inv (wordsAt [0x8C#64, 0x7F#64] 4 false) where
  memWf := by decide
  zeroSlot := by decide
  addresses := by decide
  decodes := witness_inv_start.decodes
  pcRange := ⟨1, by decide, by decide⟩
  passed := by
    rintro k _ hk ⟨cause, hc⟩
    have hk : 4 * k < 4 := hk
    obtain rfl : k = 0 := by omega
    cases hc
  emptyHalted := by decide
  haltedAt := fun h => absurd h (by decide)
  haltedResult := by decide

/-- A machine at the end of its program meets it. -/
theorem witness_inv_end : Inv (wordsAt [0x8C#64] 4 false) where
  memWf := by decide
  zeroSlot := by decide
  addresses := by decide
  decodes := by
    intro r hr
    fin_cases hr
    exact ⟨⟨.print 1, by decide⟩, by decide⟩
  pcRange := ⟨1, by decide, by decide⟩
  passed := by
    rintro k _ hk ⟨cause, hc⟩
    have hk : 4 * k < 4 := hk
    obtain rfl : k = 0 := by omega
    cases hc
  emptyHalted := by decide
  haltedAt := fun h => absurd h (by decide)
  haltedResult := by decide

/-- The first record, a later one and the end of the program. -/
theorem witness_FetchFindsTheRecordAtThePc :
    (Inv (wordsAt [0x8C#64, 0x7F#64] 0 false) ∧ (wordsAt [0x8C#64, 0x7F#64] 0 false).pc = 4 * 0)
      ∧ (Inv (wordsAt [0x8C#64, 0x7F#64] 4 false) ∧ (wordsAt [0x8C#64, 0x7F#64] 4 false).pc = 4 * 1)
      ∧ Inv (wordsAt [0x8C#64] 4 false)
        ∧ (wordsAt [0x8C#64] 4 false).pc = 4 * (wordsAt [0x8C#64] 4 false).prog.length :=
  ⟨⟨witness_inv_start, by decide⟩, ⟨witness_inv_fault, by decide⟩, witness_inv_end, by decide⟩

theorem witness_EveryInstructionCompletes : ∀ cause, Instr.sw 1 2 4 ≠ .opfault cause := by simp

/-- A step of a running and one of a halted machine. -/
theorem witness_RunningStepSendsOneSinkEvent :
    (∃ t, step (wordsAt [0x7F#64] 0 false) = .next t) ∧ ∃ t, step State.reset = .next t :=
  ⟨⟨_, rfl⟩, _, rfl⟩

theorem witness_OnlyStoresChangeMemory : (∃ t, step (wordsAt [0x10B#64] 0 false) = .next t)
    ∧ (∀ rs2 rs1 offset, Instr.lw 5 1 0 ≠ .sw rs2 rs1 offset) ∧ ∃ t, exec (.lw 5 1 0) startV3 = .next t :=
  ⟨⟨_, rfl⟩, by intros; simp, _, rfl⟩

/-- For the result clauses of the ten instructions that write a register: both ends of `rd ≠ 0`; register
0 itself falls under the frame clause, which has no hypothesis. -/
theorem witness_destination : (1 : Reg) ≠ 0 ∧ (31 : Reg) ≠ 0 := by decide

theorem witness_SnapshotListsTheCells : startV3.mem.wf := by decide

/-- The same address by the same operands, by others, and another address. -/
theorem witness_StoreThenLoadReturnsTheValue : (∃ t, exec (.sw 2 1 (-4)) startV3 = .next t)
    ∧ (5 : Reg) ≠ 0 ∧ startV3.x 1 + (-4) = startV3.x 0 + 4 ∧ startV3.x 1 + (-4) ≠ startV3.x 1 + (-3) :=
  ⟨⟨_, rfl⟩, by decide, by decide, by decide⟩

theorem witness_LoadIsIdempotent : ∃ t u, exec (.lw 5 1 (-4)) startV3 = .next t
    ∧ startV3.x 1 + (-4) = t.x 0 + 4 ∧ exec (.lw 6 0 4) t = .next u ∧ (5 : Reg) ≠ 0 ∧ (6 : Reg) ≠ 0 :=
  ⟨_, _, rfl, by decide, rfl, by decide, by decide⟩

theorem witness_UnknownIsANoOp : (some "FOO".toList : Option Text) = some "FOO".toList := rfl

/-- A recognised mnemonic, the branch-equal name and an unrecognised one. -/
theorem witness_DisplayStringShowsTheMnemonic :
    (displayName (.sw 1 2 4) = some "SW".toList ∧ ∃ t, exec (.sw 1 2 4) startV3 = .next t)
      ∧ (displayName .beq = some "BEQ".toList ∧ ∃ t, exec .beq startV3 = .next t)
      ∧ displayName (.unknown (some "FOO".toList)) = some "FOO".toList
        ∧ ∃ t, exec (.unknown (some "FOO".toList)) startV3 = .next t :=
  ⟨⟨rfl, _, rfl⟩, ⟨rfl, _, rfl⟩, rfl, _, rfl⟩

theorem witness_LoadEstablishesTheInvariant :
    (∃ t, load (.text "\nPRINT x1".toList) startV3 = .next t)
      ∧ ∃ t, load (.words [0x8C#64]) startV3 = .next t := witness_loads

/-- A step that succeeds, one that faults and one that misses. -/
theorem witness_StepKeepsTheInvariant :
    (Inv (wordsAt [0x8C#64, 0x7F#64] 0 false) ∧ ∃ t, step (wordsAt [0x8C#64, 0x7F#64] 0 false) = .next t)
      ∧ (Inv (wordsAt [0x8C#64, 0x7F#64] 4 false)
        ∧ ∃ t, step (wordsAt [0x8C#64, 0x7F#64] 4 false) = .next t)
      ∧ Inv (wordsAt [0x8C#64] 4 false) ∧ ∃ t, step (wordsAt [0x8C#64] 4 false) = .next t :=
  ⟨⟨witness_inv_start, _, rfl⟩, ⟨witness_inv_fault, _, rfl⟩, witness_inv_end, _, rfl⟩

theorem witness_LoadedMachineAlwaysSteps : Inv (wordsAt [0x8C#64, 0x7F#64] 0 false) :=
  witness_inv_start

/-- A fault and a fetch-miss. -/
theorem witness_StopIsVisibleInThePc :
    (∃ t, Inv (wordsAt [0x8C#64, 0x7F#64] 4 false)
        ∧ (wordsAt [0x8C#64, 0x7F#64] 4 false).halted = false
        ∧ step (wordsAt [0x8C#64, 0x7F#64] 4 false) = .next t ∧ t.halted = true)
      ∧ ∃ t, Inv (wordsAt [0x8C#64] 4 false) ∧ (wordsAt [0x8C#64] 4 false).halted = false
        ∧ step (wordsAt [0x8C#64] 4 false) = .next t ∧ t.halted = true :=
  ⟨⟨_, witness_inv_fault, by decide, rfl, rfl⟩, _, witness_inv_end, by decide, rfl, rfl⟩

/-- One successful step. -/
theorem witness_PcCountsTheSteps :
    ∃ t : State, Host.Core.run Sys2Proof.core 1 (wordsAt [0x8C#64, 0x7F#64] 0 false) = .next t
      ∧ t.halted = false :=
  ⟨_, rfl, rfl⟩

theorem witness_EveryRunHalts : Inv (wordsAt [0x8C#64, 0x7F#64] 0 false)
    ∧ (wordsAt [0x8C#64, 0x7F#64] 0 false).prog.length < 3 := ⟨witness_inv_start, by decide⟩

/-- A line of text and its word, about to run. -/
theorem witness_TextAndWordMachinesAgree :
    IsImage (loadedText "PRINT x1") (wordsAt [0x8C#64] 0 false)
      ∧ ∃ t, step (loadedText "PRINT x1") = .next t := by
  refine ⟨⟨by decide, by decide, by decide, by decide, by decide, by decide, ?_⟩, _, rfl⟩
  exact .cons ⟨by decide, .print 1, by decide, by decide⟩ .nil

theorem witness_LoadedWordsAreTheImage :
    (∃ t, loadProgram "# c\nPRINT x1\nfoo".toList startV3 = .next t)
      ∧ imageOf (acceptedLines "# c\nPRINT x1\nfoo".toList) = some [0x8C#64, 0#64] :=
  ⟨⟨_, rfl⟩, by decide⟩

/-- A run stopped by the ceiling, one stopped from outside, and one that goes to its end. -/
theorem witness_DriverStopsAtTheFirstFalse : Inv (wordsAt [0x8C#64, 0x7F#64] 0 false)
    ∧ reads State.halted (runDriver 1 none (wordsAt [0x8C#64, 0x7F#64] 0 false)) = some false
    ∧ reads State.halted (runDriver 1000 (some 1) (wordsAt [0x8C#64, 0x7F#64] 0 false)) = some false
    ∧ reads State.halted (runDriver 1000 none (wordsAt [0x8C#64, 0x7F#64] 0 false)) = some true :=
  ⟨witness_inv_start, by decide, by decide, by decide⟩

end Sys2Proof.Tests
end

