-- ==== Sys2Proof/Proofs/RegisterWrite.lean ====
section
/-!
PROOFS. The register file's write rule (10_state.md R22, R23).
-/

namespace Sys2Proof.Machine

/-- `wrap32` meets the spec's own description of wrapping (00_scope.md R6). -/
theorem isWrap32_wrap32 (v : Int) : IsWrap32 (wrap32 v).toInt v := wrap32_range_and_residue v

/-- A write to register 0 is discarded (R22). -/
@[simp] theorem writeReg_zero (s : State) (v : Int) : s.writeReg 0 v = s := rfl

/-- A register other than 0 reads, after a write to it, as the wrapped value (R23). -/
theorem isWrap32_x_writeReg_self (s : State) {i : Reg} (v : Int) (hi : i ≠ 0) :
    IsWrap32 ((s.writeReg i v).x i) v := by
  rw [x_writeReg_self s i v hi]
  exact isWrap32_wrap32 v

/-- Settles O19: the gate on register 0, the wrapped value at the register written, and the frame. -/
theorem registerWriteIsGatedAndWraps : Obligations.RegisterWriteIsGatedAndWraps :=
  ⟨x_zero, writeReg_zero, fun s i v hi =>
    ⟨isWrap32_x_writeReg_self s v hi, fun r hr => x_writeReg_other s i v r hr⟩⟩

end Sys2Proof.Machine
end

