-- ==== Sys2Proof/Proofs/DecodedStep.lean ====
section
/-!
PROOFS. A step runs the instruction that the fetched record decodes to (40_fetch_decode_dispatch.md
section 1, section 3).
-/

namespace Sys2Proof.Machine

/-- A running machine with a record at the pc refuses that record by the name decode gives, or
executes the instruction it decodes to: of the five things a step can be, the two that are left once
the record is there. -/
theorem step_cases_of_fetch {s : State} {r : Record} (hrun : s.halted = false)
    (hfetch : s.fetch = some r) :
    (∃ e, decodeSource r.source = .error e ∧ step s = .refused (.undecodable e))
      ∨ ∃ i, decodeSource r.source = .ok i ∧ step s = exec i s := by
  obtain ⟨hhalted, -⟩ | ⟨-, hmiss, -⟩ | ⟨r', -, hfetch', hstep⟩ := step_cases s
  · simp [hrun] at hhalted
  · simp [hfetch] at hmiss
  · obtain rfl : r = r' := Option.some.inj (hfetch.symm.trans hfetch')
    exact hstep

/-- Dispatch goes by the decoded instruction alone (R125). -/
theorem step_eq_exec_of_decode {s : State} {r : Record} {i : Instr} (hrun : s.halted = false)
    (hfetch : s.fetch = some r) (hdec : decodeSource r.source = .ok i) : step s = exec i s := by
  obtain ⟨e, herr, -⟩ | ⟨i', hok, hstep⟩ := step_cases_of_fetch hrun hfetch
  · cases hdec.symm.trans herr
  · cases hdec.symm.trans hok
    exact hstep

/-- A record that decode refuses stops the step under the same name (log entry 9). -/
theorem step_eq_refused_of_decode {s : State} {r : Record} {e : DecodeRefusal}
    (hrun : s.halted = false) (hfetch : s.fetch = some r)
    (hdec : decodeSource r.source = .error e) : step s = .refused (.undecodable e) := by
  obtain ⟨e', herr, hstep⟩ | ⟨i, hok, -⟩ := step_cases_of_fetch hrun hfetch
  · cases hdec.symm.trans herr
    exact hstep
  · cases hdec.symm.trans hok

/-- Settles O23: the step of a record that decodes, and of one that decode refuses. -/
theorem stepRunsTheDecodedInstruction : Obligations.StepRunsTheDecodedInstruction :=
  ⟨fun _ _ _ => step_eq_exec_of_decode, fun _ _ _ => step_eq_refused_of_decode⟩

end Sys2Proof.Machine
end

