-- ==== Sys2Proof/Proofs/HaltedStep.lean ====
section
/-!
PROOFS. A step on a halted machine (40_fetch_decode_dispatch.md R121).
-/

namespace Sys2Proof.Machine

/-- On a halted machine the step neither fetches nor decodes: of the five things a step can be, the
four others need a running machine. -/
theorem step_eq_haltedStep {s : State} (hhalt : s.halted = true) : step s = .next s.haltedStep := by
  obtain ⟨-, hstep⟩ | ⟨hrun, -⟩ | ⟨_, hrun, -⟩ := step_cases s
  · exact hstep
  · simp [hhalt] at hrun
  · simp [hhalt] at hrun

/-- The halted step is the identity on the architectural state (R121). -/
theorem sameArchitecture_haltedStep (s : State) : SameArchitecture s s.haltedStep := by
  simp [SameArchitecture]

/-- Settles O20: the next state is `haltedStep`, which changes only what the step returned. -/
theorem haltedStepIsTheIdentity : Obligations.HaltedStepIsTheIdentity := fun s hhalt =>
  ⟨s.haltedStep, step_eq_haltedStep hhalt, sameArchitecture_haltedStep s, haltedStep_events s,
    haltedStep_result s⟩

end Sys2Proof.Machine
end

