-- ==== Sys2Proof/Proofs/EncodedWith.lean ====
section
/-!
PROOFS. What the encoder writes, and for which instructions (30_encoding.md R98, R99, R101).
-/

namespace Sys2Proof

/-- The encoder writes `encodeBits` of exactly the instructions that have a word (R101). -/
theorem encode_eq_some_iff {i : Instr} {w : Ciw} :
    encode i = some w ↔ i.hasWord = true ∧ encodeBits i = w := by
  simp [encode]

@[simp] theorem isSome_encode (i : Instr) : (encode i).isSome = i.hasWord := by
  unfold encode
  cases i.hasWord <;> rfl

/-- An instruction without an immediate has a word, and one with an immediate has it exactly when
that is an `int32` (R101). -/
theorem hasWord_iff (i : Instr) :
    i.hasWord = true ↔ ∀ v, i.immediate? = some v → InInt32 v := by
  unfold Instr.hasWord
  cases i.immediate? <;> simp

end Sys2Proof

namespace Sys2Proof.Machine

/-- An instruction whose bits are a row packed with `op7` is encoded with that code (R99). -/
theorem encodedWith_of_packed {i : Instr} {imm : Int} {c b a : Reg} {op7 : BitVec 7} {n : Nat}
    (hbits : encodeBits i = packWord imm c b a op7) (hcode : op7.toNat = n) : EncodedWith i n := by
  refine ⟨fun w hw => ?_, ?_⟩
  · obtain ⟨-, rfl⟩ := encode_eq_some_iff.1 hw
    rw [← fieldOp7_toNat, hbits, fieldOp7_packWord, hcode]
  · rw [isSome_encode, hasWord_iff]

end Sys2Proof.Machine
end

