-- ==== Sys2Proof/Proofs/Completion.lean ====
section
/-!
PROOFS. What an instruction that writes a register and completes does and leaves unchanged
(40_fetch_decode_dispatch.md R126, 10_state.md R22, R23).
-/

namespace Sys2Proof.Machine

/-- Completion after the effect of an instruction is the completion of the spec (R126). -/
theorem completed_complete {s u : State} {before : List Event} (heff : Effect s u before)
    (code : Config.Code7) (ann : Annotation) : Completed before ann s (u.complete code ann) := by
  have hfetch : u.fetch = s.fetch := fetch_congr s u heff.prog heff.pc
  simp [Completed, heff.pc, heff.halted, heff.prog, heff.events, hfetch]

/-- A register write and the completion leave every other register and every cell alone. -/
theorem onlyWrites_writeReg_complete (s : State) (rd : Reg) (v : Int) (code : Config.Code7)
    (ann : Annotation) : OnlyWrites rd s ((s.writeReg rd v).complete code ann) :=
  ⟨x_zero _, fun r hr => x_writeReg_other s rd v r hr, fun a => by simp⟩

/-- The pattern in a register other than 0 after a write to it (R23). -/
theorem regWord_writeReg_self (s : State) {rd : Reg} (v : Int) (hrd : rd ≠ 0) :
    (s.writeReg rd v).regWord rd = wrap32 v := by
  simp [regWord_writeReg, hrd]

/-- An instruction that writes `v` to `rd` and completes: its frame, its completion, and the wrapped
value in `rd` unless that is register 0. -/
theorem exec_of_writeReg_complete {i : Instr} {s : State} {rd : Reg} {v : Int}
    {code : Config.Code7} {ann : Annotation}
    (hexec : exec i s = .next ((s.writeReg rd v).complete code ann)) :
    ∃ t, exec i s = .next t ∧ OnlyWrites rd s t ∧ Completed [] ann s t
      ∧ (rd ≠ 0 → t.regWord rd = wrap32 v) :=
  ⟨_, hexec, onlyWrites_writeReg_complete s rd v code ann,
    completed_complete (effect_writeReg s rd v) code ann, regWord_writeReg_self s v⟩

end Sys2Proof.Machine
end

