-- ==== Sys2Proof/Proofs/RegRegAlu.lean ====
section
/-!
PROOFS. Register-register arithmetic and logic (41_reg_reg_alu.md R150 to R155).
-/

namespace Sys2Proof.Machine

/-! ### The written pattern, by the operation -/

/-- `f_AND` of two registers is the and of their patterns (R153). -/
theorem wrap32_aluAnd_x (s : State) (rs1 rs2 : Reg) :
    wrap32 (aluAnd (s.x rs1) (s.x rs2)) = s.regWord rs1 &&& s.regWord rs2 :=
  wrap32_bitwise (· &&& ·) _ _

/-- `f_OR` of two registers is the or of their patterns (R154). -/
theorem wrap32_aluOr_x (s : State) (rs1 rs2 : Reg) :
    wrap32 (aluOr (s.x rs1) (s.x rs2)) = s.regWord rs1 ||| s.regWord rs2 :=
  wrap32_bitwise (· ||| ·) _ _

/-- Wrapping keeps the outcome of `f_SLT` (R155). -/
theorem toInt_wrap32_aluSlt (a b : Int) :
    (wrap32 (aluSlt a b)).toInt = if a < b then 1 else 0 :=
  wrap32_lessThan a b

/-- A register that holds the wrapped value reads as the spec's wrapped value (00_scope.md R6). -/
theorem isWrap32_x_of_regWord {t : State} {r : Reg} {v : Int} (hword : t.regWord r = wrap32 v) :
    IsWrap32 (t.x r) v := by
  rw [State.x, hword]
  exact isWrap32_wrap32 v

/-! ### Dispatch to the common shape of format R (R150) -/

theorem exec_add (rd rs1 rs2 : Reg) (s : State) :
    exec (.add rd rs1 rs2) s
      = .next ((s.writeReg rd (s.x rs1 + s.x rs2)).complete (opcode7 "ADD".toList) .none) :=
  rfl

theorem exec_sub (rd rs1 rs2 : Reg) (s : State) :
    exec (.sub rd rs1 rs2) s
      = .next ((s.writeReg rd (s.x rs1 - s.x rs2)).complete (opcode7 "SUB".toList) .none) :=
  rfl

theorem exec_and (rd rs1 rs2 : Reg) (s : State) :
    exec (.and rd rs1 rs2) s
      = .next ((s.writeReg rd (aluAnd (s.x rs1) (s.x rs2))).complete (opcode7 "AND".toList) .none) :=
  rfl

theorem exec_or (rd rs1 rs2 : Reg) (s : State) :
    exec (.or rd rs1 rs2) s
      = .next ((s.writeReg rd (aluOr (s.x rs1) (s.x rs2))).complete (opcode7 "OR".toList) .none) :=
  rfl

theorem exec_slt (rd rs1 rs2 : Reg) (s : State) :
    exec (.slt rd rs1 rs2) s
      = .next ((s.writeReg rd (aluSlt (s.x rs1) (s.x rs2))).complete (opcode7 "SLT".toList) .none) :=
  rfl

/-! ### The statements -/

/-- Settles O29: the written value is the sum in Z, which the register write wraps. -/
theorem addWritesTheWrappedSum : Obligations.AddWritesTheWrappedSum := by
  intro rd rs1 rs2 s
  obtain ⟨t, hexec, hframe, hdone, hword⟩ := exec_of_writeReg_complete (exec_add rd rs1 rs2 s)
  exact ⟨encodedWith_of_packed rfl rfl, t, hexec, hframe, hdone,
    fun hrd => isWrap32_x_of_regWord (hword hrd)⟩

/-- Settles O30: the written value is the difference in Z, which the register write wraps. -/
theorem subWritesTheWrappedDifference : Obligations.SubWritesTheWrappedDifference := by
  intro rd rs1 rs2 s
  obtain ⟨t, hexec, hframe, hdone, hword⟩ := exec_of_writeReg_complete (exec_sub rd rs1 rs2 s)
  exact ⟨encodedWith_of_packed rfl rfl, t, hexec, hframe, hdone,
    fun hrd => isWrap32_x_of_regWord (hword hrd)⟩

/-- Settles O31: the written pattern is the and of the two patterns, read bit by bit. -/
theorem andWritesTheBitwiseAnd : Obligations.AndWritesTheBitwiseAnd := by
  intro rd rs1 rs2 s
  obtain ⟨t, hexec, hframe, hdone, hword⟩ := exec_of_writeReg_complete (exec_and rd rs1 rs2 s)
  refine ⟨encodedWith_of_packed rfl rfl, t, hexec, hframe, hdone, fun hrd i _ => ?_⟩
  rw [hword hrd, wrap32_aluAnd_x, BitVec.getLsbD_and]

/-- Settles O32: the written pattern is the or of the two patterns, read bit by bit. -/
theorem orWritesTheBitwiseOr : Obligations.OrWritesTheBitwiseOr := by
  intro rd rs1 rs2 s
  obtain ⟨t, hexec, hframe, hdone, hword⟩ := exec_of_writeReg_complete (exec_or rd rs1 rs2 s)
  refine ⟨encodedWith_of_packed rfl rfl, t, hexec, hframe, hdone, fun hrd i _ => ?_⟩
  rw [hword hrd, wrap32_aluOr_x, BitVec.getLsbD_or]

/-- Settles O33: the outcome of the comparison is 0 or 1, which the register write does not change. -/
theorem sltWritesTheSignedComparison : Obligations.SltWritesTheSignedComparison := by
  intro rd rs1 rs2 s
  obtain ⟨t, hexec, hframe, hdone, hword⟩ := exec_of_writeReg_complete (exec_slt rd rs1 rs2 s)
  refine ⟨encodedWith_of_packed rfl rfl, t, hexec, hframe, hdone, fun hrd => ?_⟩
  rw [State.x, hword hrd, toInt_wrap32_aluSlt]

end Sys2Proof.Machine
end

