-- ==== Sys2Proof/Proofs/FetchMiss.lean ====
section
/-!
PROOFS. A step with no record at the pc, and where the pc then is (40_fetch_decode_dispatch.md R123,
60_exceptions.md R221).
-/

namespace Sys2Proof.Machine

/-- A fetch finds nothing exactly when no record has the pc as its address (R123). -/
theorem fetch_eq_none_iff (s : State) : s.fetch = none ↔ ∀ r ∈ s.prog, r.address ≠ s.pc := by
  simp [State.fetch]

/-- With no record at the pc nothing is decoded: of the five things a step can be, the four others
need a halted machine or a record. -/
theorem step_eq_fetchMiss {s : State} (hrun : s.halted = false) (hmiss : s.fetch = none) :
    step s = .next s.fetchMiss := by
  obtain ⟨hhalt, -⟩ | ⟨-, -, hstep⟩ | ⟨r, -, hfetch, -⟩ := step_cases s
  · simp [hrun] at hhalt
  · exact hstep
  · simp [hmiss] at hfetch

/-- Every record lies before the end of the program `4N`. -/
theorem address_lt_of_inv {s : State} (hinv : Inv s) {r : Record} (hr : r ∈ s.prog) :
    r.address < 4 * s.prog.length := by
  obtain ⟨k, hk, rfl⟩ := List.getElem_of_mem hr
  have haddress := hinv.addresses k hk
  omega

/-- A pc of the form `4k` that no record has as its address is the end of the program, for record
`k` has every such address below it. -/
theorem no_record_at_pc_iff_of_inv {s : State} (hinv : Inv s) :
    (∀ r ∈ s.prog, r.address ≠ s.pc) ↔ s.pc = 4 * s.prog.length := by
  constructor
  · intro hnone
    obtain ⟨k, hle, hpc⟩ := hinv.pcRange
    obtain hlt | rfl := hle.lt_or_eq
    · exact absurd ((hinv.addresses k hlt).trans hpc.symm) (hnone _ (List.getElem_mem hlt))
    · exact hpc
  · intro hpc r hr
    rw [hpc]
    exact (address_lt_of_inv hinv hr).ne

/-- Settles O21: the next state is `fetchMiss`, and under the invariant the records' addresses leave
only `4N` for the pc of a fetch-miss. -/
theorem fetchMissHalts : Obligations.FetchMissHalts :=
  ⟨fun s hrun hnone =>
    ⟨s.fetchMiss, step_eq_fetchMiss hrun ((fetch_eq_none_iff s).mpr hnone), fetchMiss_halted s,
      fetchMiss_events s, fetchMiss_result s, fetchMiss_pc s, fetchMiss_regs s, fetchMiss_mem s,
      fetchMiss_prog s⟩,
    fun _ => no_record_at_pc_iff_of_inv⟩

end Sys2Proof.Machine
end

