-- ==== Sys2Proof/Proofs/WordDecode.lean ====
section
/-!
PROOFS. The word decoder against the encoder and against the fields a row uses (30_encoding.md R98 to
R101).
-/

namespace Sys2Proof

/-! ### The table of rows -/

/-- The instruction of the row of code `n` with the given fields (30_encoding.md R99). -/
def rowInstr (n : Nat) (a b c : Reg) (imm : Int) : Instr :=
  match n with
  | 0x01 => .add a b c
  | 0x02 => .sub a b c
  | 0x03 => .and a b c
  | 0x04 => .or a b c
  | 0x05 => .slt a b c
  | 0x06 => .mult a b c
  | 0x07 => .sll a b c
  | 0x08 => .addi a b imm
  | 0x09 => .slti a b imm
  | 0x0A => .lw a b imm
  | 0x0B => .sw a b imm
  | 0x0C => .print a
  | 0x0D => .beq
  | 0x7F => .opfault .badImmediate
  | _ => .unknown none

/-- The decoder reads a word through its five fields alone. -/
theorem decodeWord_eq_rowInstr (w : Ciw) :
    decodeWord w = rowInstr (fieldOp7 w).toNat (fieldA w) (fieldB w) (fieldC w) (fieldImm w) := rfl

/-- The decoder gives the row of the packed code with the packed fields. -/
theorem decodeWord_packWord {imm : Int} (himm : InInt32 imm) (c b a : Reg) (op7 : BitVec 7) :
    decodeWord (packWord imm c b a op7) = rowInstr op7.toNat a b c imm := by
  rw [decodeWord_eq_rowInstr, fieldImm_packWord imm himm]
  simp

/-- An unassigned code is `UNKNOWN` (R99, R100). -/
theorem rowInstr_unassigned {n : Nat} (hn : n = 0 ∨ (14 ≤ n ∧ n ≤ 126)) (a b c : Reg) (imm : Int) :
    rowInstr n a b c imm = .unknown none := by
  obtain rfl | ⟨hlow, hhigh⟩ := hn
  · rfl
  · interval_cases n <;> rfl

/-- A row depends on the fields it uses alone (R100). -/
theorem rowInstr_congr {n : Nat} {a b c a' b' c' : Reg} {imm imm' : Int} (ha : n ≤ 12 → a = a')
    (hb : n ≤ 11 → b = b') (hc : n ≤ 7 → c = c') (himm : 8 ≤ n → n ≤ 11 → imm = imm') :
    rowInstr n a b c imm = rowInstr n a' b' c' imm' := by
  unfold rowInstr
  split <;> simp_all

/-- A word keeps all of the instruction its row gives (R101). -/
theorem kept_rowInstr (n : Nat) (a b c : Reg) (imm : Int) :
    (rowInstr n a b c imm).kept = rowInstr n a b c imm := by
  unfold rowInstr
  split <;> rfl

/-- A row with an `int32` in its immediate field has a word (R101). -/
theorem hasWord_rowInstr (n : Nat) (a b c : Reg) {imm : Int} (himm : InInt32 imm) :
    (rowInstr n a b c imm).hasWord = true := by
  unfold rowInstr
  split <;> simp [Instr.hasWord, Instr.immediate?, himm]

/-! ### Decode and encode -/

/-- The immediate field of a word is an `int32` (R98). -/
theorem inInt32_fieldImm (w : Ciw) : InInt32 (fieldImm w) := by
  have hlow := BitVec.le_toInt (w.extractLsb' 32 32)
  have hhigh := BitVec.toInt_lt (x := w.extractLsb' 32 32)
  unfold fieldImm
  constructor <;> omega

theorem kept_decodeWord (w : Ciw) : (decodeWord w).kept = decodeWord w := kept_rowInstr _ _ _ _ _

theorem hasWord_decodeWord (w : Ciw) : (decodeWord w).hasWord = true :=
  hasWord_rowInstr _ _ _ _ (inInt32_fieldImm w)

/-- The bits of an instruction decode to what a word keeps of it: its row of the table, read back. -/
theorem decodeWord_encodeBits {i : Instr} (hword : i.hasWord = true) :
    decodeWord (encodeBits i) = i.kept := by
  have himm := (hasWord_iff i).mp hword
  cases i with
  | addi rd rs1 imm => exact decodeWord_packWord (himm imm rfl) _ _ _ _
  | slti rd rs1 imm => exact decodeWord_packWord (himm imm rfl) _ _ _ _
  | lw rd rs1 offset => exact decodeWord_packWord (himm offset rfl) _ _ _ _
  | sw rs2 rs1 offset => exact decodeWord_packWord (himm offset rfl) _ _ _ _
  | _ => exact decodeWord_packWord (imm := 0) (by decide) _ _ _ _

/-- The word of an instruction decodes to what it keeps (R101). -/
theorem decodeWord_of_encode {i : Instr} {w : Ciw} (henc : encode i = some w) :
    decodeWord w = i.kept := by
  obtain ⟨hword, rfl⟩ := encode_eq_some_iff.mp henc
  exact decodeWord_encodeBits hword

/-- Every instruction is packed with zeros in bits 31:22 (R98). -/
theorem zeroField_encodeBits (i : Instr) : (encodeBits i).extractLsb' 22 10 = 0#10 := by
  cases i <;> exact zeroField_packWord _ _ _ _ _

end Sys2Proof

namespace Sys2Proof.Machine

/-- Settles O2: the encoder packs the row of the instruction and the decoder reads that row. -/
theorem decodeOfEncodeKeepsTheInstruction : Obligations.DecodeOfEncodeKeepsTheInstruction :=
  fun _ _ => decodeWord_of_encode

/-- Settles O3: the canonical word is the encoding of the decoded instruction, which has an `int32`
in its immediate field and of which a word keeps everything. -/
theorem everyWordHasACanonicalWord : Obligations.EveryWordHasACanonicalWord := by
  intro w
  refine ⟨encodeBits (decodeWord w), encode_eq_some_iff.mpr ⟨hasWord_decodeWord w, rfl⟩, ?_,
    zeroField_encodeBits _⟩
  rw [decodeWord_encodeBits (hasWord_decodeWord w), kept_decodeWord]

/-- Settles O4: the row of the code decides, and it depends on the fields it uses alone. -/
theorem wordDecodeIsLenient : Obligations.WordDecodeIsLenient := by
  refine ⟨fun w hcode => ?_, fun w w' hop7 ha hb hc himm => ?_⟩
  · rw [← fieldOp7_toNat] at hcode
    exact rowInstr_unassigned hcode _ _ _ _
  · rw [decodeWord_eq_rowInstr, decodeWord_eq_rowInstr, fieldOp7, fieldOp7, ← hop7]
    exact rowInstr_congr (fun h => congrArg BitVec.toFin (ha h))
      (fun h => congrArg BitVec.toFin (hb h)) (fun h => congrArg BitVec.toFin (hc h))
      (fun h h' => congrArg BitVec.toInt (himm h h'))

/-- Settles O1: each word's code names its row, and the row's fields evaluate. -/
theorem sampleWordsDecodeAsListed : Obligations.SampleWordsDecodeAsListed := by
  unfold Obligations.SampleWordsDecodeAsListed
  decide

end Sys2Proof.Machine
end

