-- ==== Sys2Proof/Proofs/MultShiftImm.lean ====
section
/-!
PROOFS. The other register-register operations and the register-immediate ones (41_reg_reg_alu.md
R156, R157; 42_reg_imm.md R170 to R172).
-/

namespace Sys2Proof.Machine

/-- `f_SLL` of two registers shifts by the low five bits of the second pattern (R157). -/
theorem aluSll_x (s : State) (rs1 rs2 : Reg) :
    aluSll (s.x rs1) (s.x rs2) = s.x rs1 * 2 ^ ((s.regWord rs2).extractLsb' 0 5).toNat := by
  rw [aluSll, State.x, State.x, shiftAmount_toInt]

/-! ### Dispatch to the common shape of formats R and I (R150, R170) -/

theorem exec_mult (rd rs1 rs2 : Reg) (s : State) :
    exec (.mult rd rs1 rs2) s
      = .next ((s.writeReg rd (s.x rs1 * s.x rs2)).complete (opcode7 "MULT".toList) .none) :=
  rfl

theorem exec_sll (rd rs1 rs2 : Reg) (s : State) :
    exec (.sll rd rs1 rs2) s
      = .next ((s.writeReg rd (aluSll (s.x rs1) (s.x rs2))).complete (opcode7 "SLL".toList) .none) :=
  rfl

theorem exec_addi (rd rs1 : Reg) (imm : Int) (s : State) :
    exec (.addi rd rs1 imm) s
      = .next ((s.writeReg rd (s.x rs1 + imm)).complete (opcode7 "ADDI".toList) .none) :=
  rfl

theorem exec_slti (rd rs1 : Reg) (imm : Int) (s : State) :
    exec (.slti rd rs1 imm) s
      = .next ((s.writeReg rd (aluSlt (s.x rs1) imm)).complete (opcode7 "SLTI".toList) .none) :=
  rfl

/-! ### The statements -/

/-- Settles O34: the written value is the product in Z, which the register write wraps. -/
theorem multWritesTheWrappedProduct : Obligations.MultWritesTheWrappedProduct := by
  intro rd rs1 rs2 s
  obtain ⟨t, hexec, hframe, hdone, hword⟩ := exec_of_writeReg_complete (exec_mult rd rs1 rs2 s)
  exact ⟨encodedWith_of_packed rfl rfl, t, hexec, hframe, hdone,
    fun hrd => isWrap32_x_of_regWord (hword hrd)⟩

/-- Settles O35: the written value is the shifted number in Z, by the low five bits of the second
pattern, which the register write wraps. -/
theorem sllWritesTheWrappedShift : Obligations.SllWritesTheWrappedShift := by
  intro rd rs1 rs2 s
  obtain ⟨t, hexec, hframe, hdone, hword⟩ := exec_of_writeReg_complete (exec_sll rd rs1 rs2 s)
  refine ⟨encodedWith_of_packed rfl rfl, t, hexec, hframe, hdone, fun hrd => ?_⟩
  rw [← aluSll_x]
  exact isWrap32_x_of_regWord (hword hrd)

/-- Settles O36: the immediate is added in Z and only the sum is wrapped. -/
theorem addiWritesTheWrappedSum : Obligations.AddiWritesTheWrappedSum := by
  intro rd rs1 imm s
  obtain ⟨t, hexec, hframe, hdone, hword⟩ := exec_of_writeReg_complete (exec_addi rd rs1 imm s)
  exact ⟨encodedWith_of_packed rfl rfl, t, hexec, hframe, hdone,
    fun hrd => isWrap32_x_of_regWord (hword hrd)⟩

/-- Settles O37: the comparison is with the unwrapped immediate, and its outcome is 0 or 1, which the
register write does not change. -/
theorem sltiWritesTheSignedComparison : Obligations.SltiWritesTheSignedComparison := by
  intro rd rs1 imm s
  obtain ⟨t, hexec, hframe, hdone, hword⟩ := exec_of_writeReg_complete (exec_slti rd rs1 imm s)
  refine ⟨encodedWith_of_packed rfl rfl, t, hexec, hframe, hdone, fun hrd => ?_⟩
  rw [State.x, hword hrd, toInt_wrap32_aluSlt]

end Sys2Proof.Machine
end

