-- ==== Sys2Proof/Proofs/LoadStore.lean ====
section
/-!
PROOFS. Load and store (43_load_store.md R180 to R183, 20_memory.md R51 to R57).
-/

namespace Sys2Proof.Machine

/-! ### The two instructions -/

theorem exec_lw (rd rs1 : Reg) (offset : Int) (s : State) :
    exec (.lw rd rs1 offset) s
      = .next ((s.writeReg rd (memRead s.mem (s.x rs1 + offset)).toInt).complete
          (opcode7 "LW".toList) (.load (memRead s.mem (s.x rs1 + offset)) (s.x rs1 + offset))) :=
  rfl

theorem exec_sw (rs2 rs1 : Reg) (offset : Int) (s : State) :
    exec (.sw rs2 rs1 offset) s
      = .next ((s.store (s.x rs1 + offset) (s.regWord rs2)).complete
          (opcode7 "SW".toList) (.store (s.regWord rs2) (s.x rs1 + offset))) :=
  rfl

/-- What a load leaves in a register other than 0 is the cell it read (R181). -/
theorem x_of_exec_lw {rd rs1 : Reg} {offset : Int} {s t : State}
    (hexec : exec (.lw rd rs1 offset) s = .next t) (hrd : rd ≠ 0) :
    t.x rd = (memRead s.mem (s.x rs1 + offset)).toInt := by
  obtain ⟨t', hexec', -, -, hword⟩ := exec_of_writeReg_complete (exec_lw rd rs1 offset s)
  obtain rfl := Host.Outcome.next.inj (hexec'.symm.trans hexec)
  rw [State.x, hword hrd, wrap32_toInt]

/-- A load leaves every cell as it was (R181). -/
theorem mem_of_exec_lw {rd rs1 : Reg} {offset : Int} {s t : State}
    (hexec : exec (.lw rd rs1 offset) s = .next t) : t.mem = s.mem := by
  obtain rfl := Host.Outcome.next.inj ((exec_lw rd rs1 offset s).symm.trans hexec)
  simp

/-- What a read gives after a write: the value at the address written, the old cell elsewhere. -/
theorem memRead_memWrite (m : Memory) (a : Int) (v : Word) (b : Int) :
    memRead (memWrite m a v) b = if b = a then v else memRead m b := by
  unfold memRead
  rw [memCell_memWrite]
  split <;> rfl

/-- A load after a store gives the stored value at the store's address and the old cell elsewhere
(R183). -/
theorem x_load_after_store {a b c d : Reg} {k j : Int} {s t u : State}
    (hsw : exec (.sw a b k) s = .next t) (hlw : exec (.lw c d j) t = .next u) (hc : c ≠ 0) :
    u.x c = if s.x d + j = s.x b + k then s.x a else (memRead s.mem (s.x d + j)).toInt := by
  obtain rfl := Host.Outcome.next.inj ((exec_sw a b k s).symm.trans hsw)
  rw [x_of_exec_lw hlw hc]
  simp only [complete_mem, store_mem, complete_x, store_x, memRead_memWrite]
  split <;> rfl

/-- There is a cell after every write. -/
theorem memWrite_ne_nil (m : Memory) (a : Int) (v : Word) : memWrite m a v ≠ [] := by
  cases m with
  | nil => simp [memWrite]
  | cons p m =>
    unfold memWrite
    split_ifs <;> simp

/-! ### The statements -/

/-- Settles O38: the register write wraps a pattern's own reading, so the cell's pattern is left. -/
theorem lwLoadsTheCell : Obligations.LwLoadsTheCell := by
  intro rd rs1 offset s
  obtain ⟨t, hexec, hframe, hdone, -⟩ := exec_of_writeReg_complete (exec_lw rd rs1 offset s)
  exact ⟨encodedWith_of_packed rfl rfl, t, _, hexec, rfl, hframe, hdone, x_of_exec_lw hexec⟩

/-- Settles O39: the store writes one cell, notifies, and completes. -/
theorem swStoresTheCell : Obligations.SwStoresTheCell := by
  intro rs2 rs1 offset s
  refine ⟨encodedWith_of_packed rfl rfl, _, s.regWord rs2, exec_sw rs2 rs1 offset s, rfl, ?_, ?_,
    fun r => rfl, completed_complete (effect_store s _ _) _ _⟩
  · simp [memCell_memWrite]
  · intro a ha
    simp [memCell_memWrite, ha]

/-- Settles O40: the snapshot is the memory after the write, which is in canonical form again. -/
theorem snapshotListsTheCells : Obligations.SnapshotListsTheCells := by
  intro rs2 rs1 offset s hwf
  have hwf' := memWrite_wf s.mem (s.x rs1 + offset) (s.regWord rs2) hwf
  refine ⟨_, memWrite s.mem (s.x rs1 + offset) (s.regWord rs2), exec_sw rs2 rs1 offset s, ?_, hwf',
    memWrite_ne_nil _ _ _, mem_iff_memCell _ hwf'⟩
  simp

/-- Settles O41: the load reads the memory the store left, at an address computed from registers the
store left. -/
theorem storeThenLoadReturnsTheValue : Obligations.StoreThenLoadReturnsTheValue := by
  intro a b c d k j s t hsw
  have hread := fun hc => x_load_after_store (c := c) hsw (exec_lw c d j t) hc
  refine ⟨_, exec_lw c d j t, ?_, ?_, ?_, ?_⟩
  · rintro rfl
    exact x_zero _
  · rintro hc rfl rfl
    rw [hread hc, if_pos rfl]
  · intro hc heq
    rw [hread hc, if_pos heq.symm]
  · intro hc hne
    rw [hread hc, if_neg (Ne.symm hne)]
    rfl

/-- Settles O42: the first load leaves the memory alone, and both read the same address of it. -/
theorem loadIsIdempotent : Obligations.LoadIsIdempotent := by
  intro r₁ b₁ r₂ b₂ k₁ k₂ s t u hr₁ hr₂ hfirst haddress hsecond
  rw [x_of_exec_lw hsecond hr₂, x_of_exec_lw hfirst hr₁, mem_of_exec_lw hfirst, haddress]

end Sys2Proof.Machine
end

