-- ==== Sys2Proof/Proofs/OutputAndNoOps.lean ====
section
/-!
PROOFS. Output, the no-ops, the failure path and the display string (44_output_and_unknown.md R190 to
R193, 46_host_interface.md R208 to R210).
-/

namespace Sys2Proof.Machine

/-! ### The instructions that change no register and no cell -/

theorem exec_print (rs : Reg) (s : State) :
    exec (.print rs) s = .next (s.complete (opcode7 "PRINT".toList) (.print (s.regWord rs))) := rfl

theorem exec_beq (s : State) : exec .beq s = .next (s.complete (opcode7 Config.beqName) .none) := rfl

theorem exec_unknown_some (m : Text) (s : State) :
    exec (.unknown (some m)) s = .next (s.complete (opcode7 m) .none) := rfl

theorem exec_unknown_none (s : State) :
    exec (.unknown none) s = .next (s.complete (Config.lostCode s.freeIndex) .none).useFree := rfl

theorem exec_opfault (cause : FaultCause) (s : State) :
    exec (.opfault cause) s = .next (s.raiseExecFault cause) := rfl

/-- Completion of an instruction without an effect of its own (R126). -/
theorem completed_complete_self (s : State) (code : Config.Code7) (ann : Annotation) :
    Completed [] ann s (s.complete code ann) := completed_complete (effect_refl s) code ann

/-! ### The display string -/

/-- The lookup of the table gives the code that R209 asks for. -/
theorem showsCodeOf_of_result {m : Text} {t : State}
    (hresult : t.result = some ⟨bitPattern (opcode7 m)⟩) : ShowsCodeOf m t := by
  have hname : Config.beqName = "BEQ".toList := rfl
  refine ⟨opcode7 m, hresult, ?_, ?_, ?_⟩
  · rintro rfl
    rw [opcode7, List.lookup_cons, hname, beq_self_eq_true]
    rfl
  · intro hne c hc
    rw [opcode7, List.lookup_cons, hname, beq_false_of_ne hne]
    simp [hc]
  · intro hne hc
    rw [opcode7, List.lookup_cons, hname, beq_false_of_ne hne]
    simp only [hc]
    decide

/-- An instruction with a display name returns the table's code for it. -/
theorem result_of_displayName {i : Instr} {m : Text} {s t : State} (hname : displayName i = some m)
    (hexec : exec i s = .next t) : t.result = some ⟨bitPattern (opcode7 m)⟩ := by
  cases i with
  | opfault cause => cases hname
  | unknown m' =>
    obtain rfl : m' = some m := hname
    cases hexec
    rfl
  | _ =>
    cases hname
    cases hexec
    rfl

/-- Settles O47: every instruction but `OPFAULT` returns the table's code for its name. -/
theorem displayStringShowsTheMnemonic : Obligations.DisplayStringShowsTheMnemonic :=
  fun _ _ _ _ hname hexec => showsCodeOf_of_result (result_of_displayName hname hexec)

/-! ### The statements of the four instructions -/

/-- Settles O43: `PRINT` completes on the state as it is, with the register in the annotation. -/
theorem printSendsTheRegister : Obligations.PrintSendsTheRegister := fun rs s =>
  ⟨encodedWith_of_packed rfl rfl, _, s.regWord rs, exec_print rs s, rfl,
    completed_complete_self s _ _, fun _ => rfl, fun _ => rfl⟩

/-- Settles O44: an `UNKNOWN` completes on the state as it is; one read from a word uses up a free
value besides. -/
theorem unknownIsANoOp : Obligations.UnknownIsANoOp := by
  intro m s
  refine ⟨encodedWith_of_packed rfl rfl, ?_⟩
  cases m with
  | none =>
    exact ⟨_, exec_unknown_none s, completed_complete_self s _ _, fun _ => rfl, fun _ => rfl,
      fun _ h => by cases h⟩
  | some name =>
    refine ⟨_, exec_unknown_some name s, completed_complete_self s _ _, fun _ => rfl, fun _ => rfl, ?_⟩
    rintro _ ⟨⟩
    exact showsCodeOf_of_result (complete_result _ _ _)

/-- Settles O45: the branch-equal name completes on the state as it is, with its own display code. -/
theorem branchEqualNameIsANoOp : Obligations.BranchEqualNameIsANoOp := fun s =>
  ⟨encodedWith_of_packed rfl rfl, _, exec_beq s, completed_complete_self s _ _, fun _ => rfl,
    fun _ => rfl, showsCodeOf_of_result (complete_result _ _ _)⟩

/-- Settles O46: `OPFAULT` is `raiseExecFault` and nothing else. -/
theorem opfaultTakesTheFailurePath : Obligations.OpfaultTakesTheFailurePath := fun cause s =>
  ⟨encodedWith_of_packed rfl rfl, _, exec_opfault cause s, rfl, rfl, rfl, rfl, fun _ => rfl,
    fun _ => rfl, rfl⟩

end Sys2Proof.Machine
end

