-- ==== Sys2Proof/Proofs/InstructionOutcome.lean ====
section
/-!
PROOFS. What every instruction, and so every step, does to the pc, the program and the observers
(40_fetch_decode_dispatch.md R126 to R131, 20_memory.md R60, R63).
-/

namespace Sys2Proof.Machine

/-! ### The two ways an instruction ends -/

/-- What an instruction that is no `OPFAULT` leaves: a completion, whose only event before the trace
is the notification of the one memory write it may have made. -/
structure Success (s t : State) (before : List Event) (ann : Annotation) : Prop where
  completed : Completed before ann s t
  zeroSlot : t.regs[0] = s.regs[0]
  memory : (before = [] ∧ t.mem = s.mem)
    ∨ ∃ a v, t.mem = memWrite s.mem a v ∧ before = [.memoryChanged t.mem]
  result : ∃ code, t.result = some ⟨bitPattern code⟩

theorem success_complete {s u : State} {before : List Event} (heff : Effect s u before)
    (code : Config.Code7) (ann : Annotation) : Success s (u.complete code ann) before ann :=
  ⟨completed_complete heff code ann, heff.zeroSlot, heff.memory, code, rfl⟩

/-- Using up a free value is seen in no field that `Success` speaks of. -/
theorem success_useFree {s u : State} {before : List Event} {ann : Annotation}
    (h : Success s u before ann) : Success s u.useFree before ann :=
  ⟨h.completed, h.zeroSlot, h.memory, h.result⟩

/-- Every instruction has a next state in every state. -/
theorem exec_total (i : Instr) (s : State) : ∃ t, exec i s = .next t := by
  obtain ⟨_, -, hexec⟩ | ⟨_, _, _, _, -, -, hexec⟩ | ⟨-, hexec⟩ := exec_cases i s
  all_goals exact ⟨_, hexec⟩

/-- An instruction takes the failure path or succeeds. -/
theorem exec_next_cases {i : Instr} {s t : State} (hexec : exec i s = .next t) :
    (∃ cause, i = .opfault cause ∧ t = s.raiseExecFault cause)
      ∨ (∀ cause, i ≠ .opfault cause) ∧ ∃ before ann, Success s t before ann := by
  obtain ⟨cause, hi, h⟩ | ⟨u, before, code, ann, hi, heff, h⟩ | ⟨hi, h⟩ := exec_cases i s
  all_goals obtain rfl := Host.Outcome.next.inj (h.symm.trans hexec)
  · exact .inl ⟨cause, hi, rfl⟩
  · exact .inr ⟨hi, before, ann, success_complete heff code ann⟩
  · exact .inr ⟨by simp [hi], [], .none, success_useFree (success_complete (effect_refl s) _ _)⟩

/-- An instruction that is no `OPFAULT` succeeds in every state (R126). -/
theorem exec_success {i : Instr} (hi : ∀ cause, i ≠ .opfault cause) (s : State) :
    ∃ t before ann, exec i s = .next t ∧ Success s t before ann := by
  obtain ⟨t, hexec⟩ := exec_total i s
  obtain ⟨cause, hfault, -⟩ | ⟨-, before, ann, hsuccess⟩ := exec_next_cases hexec
  · exact absurd hfault (hi cause)
  · exact ⟨t, before, ann, hexec, hsuccess⟩

/-- A step that answers a next state is a halted one, a fetch-miss, or an instruction. -/
theorem step_next_cases {s t : State} (hstep : step s = .next t) :
    (s.halted = true ∧ t = s.haltedStep)
      ∨ (s.halted = false ∧ s.fetch = none ∧ t = s.fetchMiss)
      ∨ ∃ r i, s.halted = false ∧ s.fetch = some r ∧ decodeSource r.source = .ok i
        ∧ exec i s = .next t := by
  obtain ⟨hhalt, h⟩ | ⟨hrun, hmiss, h⟩ | ⟨r, hrun, hfetch, ⟨e, -, h⟩ | ⟨i, hdec, h⟩⟩ := step_cases s
  · exact .inl ⟨hhalt, Host.Outcome.next.inj (hstep.symm.trans h)⟩
  · exact .inr (.inl ⟨hrun, hmiss, Host.Outcome.next.inj (hstep.symm.trans h)⟩)
  · cases hstep.symm.trans h
  · exact .inr (.inr ⟨r, i, hrun, hfetch, hdec, h.symm.trans hstep⟩)

/-! ### Completion in every state -/

/-- The display string is the groups of question marks and seven characters (46_host_interface.md R208). -/
theorem bitPattern_shape (code : Config.Code7) : (bitPattern code).length = 31
    ∧ (bitPattern code).take 24 = "??????? ????? ????? ??? ".toList := by
  have hgroups : "??????? ????? ????? ??? ".toList.length = 24 := by decide
  unfold bitPattern
  exact ⟨by rw [List.length_append, hgroups, Vector.length_toList], List.take_left' hgroups⟩

/-- Settles O26: a success is a completion, and its display string has the shape of R208. -/
theorem everyInstructionCompletes : Obligations.EveryInstructionCompletes := by
  intro i s hi
  obtain ⟨t, before, ann, hexec, hsuccess⟩ := exec_success hi s
  obtain ⟨code, hcode⟩ := hsuccess.result
  refine ⟨t, before, ann, hexec, hsuccess.completed, ?_, bitPattern code, hcode, bitPattern_shape code⟩
  exact hsuccess.memory.imp And.left fun ⟨_, _, _, hbefore⟩ => hbefore

/-! ### The trace sink -/

/-- The sink counts those of the new events that go to it. -/
theorem sinkCount_of_events {s t : State} {new : List Event} (hevents : t.events = s.events ++ new) :
    t.sinkCount = s.sinkCount + new.countP Event.toSink := by
  rw [State.sinkCount, hevents, List.countP_append, State.sinkCount]

/-- A success sends the sink the trace event alone: a notification goes to the memory view. -/
theorem sinkCount_of_success {s t : State} {before : List Event} {ann : Annotation}
    (h : Success s t before ann) : t.sinkCount = s.sinkCount + 1 := by
  obtain ⟨-, -, -, hevents, -⟩ := h.completed
  rw [List.append_assoc] at hevents
  rw [sinkCount_of_events hevents]
  obtain ⟨rfl, -⟩ | ⟨a, v, -, rfl⟩ := h.memory <;> rfl

/-- Every instruction sends the sink one event (R131). -/
theorem sinkCount_of_exec {i : Instr} {s t : State} (hexec : exec i s = .next t) :
    t.sinkCount = s.sinkCount + 1 := by
  obtain ⟨cause, -, rfl⟩ | ⟨-, before, ann, hsuccess⟩ := exec_next_cases hexec
  · exact sinkCount_of_events (raiseExecFault_events s cause)
  · exact sinkCount_of_success hsuccess

/-- Settles O27: one `End` event of a fetch-miss, or the one event of an instruction. -/
theorem runningStepSendsOneSinkEvent : Obligations.RunningStepSendsOneSinkEvent := by
  intro s t hstep
  obtain ⟨hhalt, rfl⟩ | ⟨hrun, -, rfl⟩ | ⟨r, i, hrun, -, -, hexec⟩ := step_next_cases hstep
  · rw [if_pos hhalt]
    rfl
  · rw [hrun]
    exact sinkCount_of_events (fetchMiss_events s)
  · rw [hrun]
    exact sinkCount_of_exec hexec

/-! ### The program and the memory -/

theorem prog_of_exec {i : Instr} {s t : State} (hexec : exec i s = .next t) : t.prog = s.prog := by
  obtain ⟨cause, -, rfl⟩ | ⟨-, before, ann, hsuccess⟩ := exec_next_cases hexec
  · exact raiseExecFault_prog s cause
  · obtain ⟨-, -, hprog, -⟩ := hsuccess.completed
    exact hprog

theorem prog_of_step {s t : State} (hstep : step s = .next t) : t.prog = s.prog := by
  obtain ⟨-, rfl⟩ | ⟨-, -, rfl⟩ | ⟨r, i, -, -, -, hexec⟩ := step_next_cases hstep
  · rfl
  · rfl
  · exact prog_of_exec hexec

/-- An instruction other than `SW` leaves the memory as it was, and its one event goes to the trace
sink. -/
theorem mem_and_events_of_not_sw {i : Instr} {s t : State}
    (hi : ∀ rs2 rs1 offset, i ≠ .sw rs2 rs1 offset) (hexec : exec i s = .next t) :
    t.mem = s.mem ∧ ∃ e, t.events = s.events ++ [e] ∧ e.toSink = true := by
  cases i with
  | sw rs2 rs1 offset => exact absurd rfl (hi rs2 rs1 offset)
  | unknown m => cases m <;> cases hexec <;> exact ⟨rfl, _, rfl, rfl⟩
  | opfault cause => cases hexec; exact ⟨rfl, _, rfl, rfl⟩
  | beq => cases hexec; exact ⟨rfl, _, rfl, rfl⟩
  | print rs => cases hexec; exact ⟨rfl, _, rfl, rfl⟩
  | _ =>
    cases hexec
    simp [State.regReg, State.regImm, Event.toSink]

/-- Settles O28: every way a step ends keeps the program, and the one event of an instruction other
than `SW` is no notification. -/
theorem onlyStoresChangeMemory : Obligations.OnlyStoresChangeMemory := by
  refine ⟨fun s t => prog_of_step, fun i s t hi hexec => ?_⟩
  obtain ⟨hmem, e, hevents, hsink⟩ := mem_and_events_of_not_sw hi hexec
  refine ⟨hmem, fun snapshot => ?_⟩
  have hne : e ≠ .memoryChanged snapshot := by
    rintro rfl
    cases hsink
  rw [hevents, List.count_append, List.count_singleton]
  simp [hne]

/-! ### An instruction and its word -/

/-- A word keeps all of an instruction but the mnemonic of an `UNKNOWN` and the cause of an `OPFAULT`. -/
theorem kept_cases (i : Instr) : (∃ m, i = .unknown m) ∨ (∃ cause, i = .opfault cause)
    ∨ (∀ m, i ≠ .unknown m) ∧ (∀ cause, i ≠ .opfault cause) ∧ i.kept = i := by
  cases i with
  | unknown m => exact .inl ⟨m, rfl⟩
  | opfault cause => exact .inr (.inl ⟨cause, rfl⟩)
  | _ => exact .inr (.inr ⟨by simp, by simp, rfl⟩)

/-- Settles O5: what a word keeps is the same instruction, an `UNKNOWN` with another display code, or
an `OPFAULT` with another cause. -/
theorem encodedInstructionRunsAlike : Obligations.EncodedInstructionRunsAlike := by
  intro i w s t henc hexec
  rw [decodeWord_of_encode henc]
  obtain ⟨m, rfl⟩ | ⟨cause, rfl⟩ | ⟨hunknown, hopfault, hkept⟩ := kept_cases i
  · refine ⟨_, exec_unknown_none s, ?_⟩
    cases m <;> cases hexec <;> simp [SameArchitecture]
  · refine ⟨_, exec_opfault .badImmediate s, ?_⟩
    cases hexec
    simp [SameArchitecture]
  · rw [hkept]
    exact ⟨t, hexec, ⟨rfl, rfl, rfl, rfl, rfl⟩, rfl, fun _ => rfl, fun _ => rfl,
      fun cause h => absurd h (hopfault cause)⟩

end Sys2Proof.Machine
end

