-- ==== Sys2Proof/Proofs/StepInvariant.lean ====
section
/-!
PROOFS. The invariant of a loaded machine along its steps, and the two ways it stops (10_state.md
R22 to R33, 60_exceptions.md R221 to R228).
-/

namespace Sys2Proof.Machine

/-! ### Fetch in a state that meets the invariant -/

/-- What a fetch finds is record `k` at the pc `4k`. -/
theorem fetch_some_of_inv {s : State} (hinv : Inv s) {r : Record} (hfetch : s.fetch = some r) :
    ∃ k, ∃ hk : k < s.prog.length, s.pc = 4 * k ∧ r = s.prog[k] := by
  have haddress : r.address = s.pc := by simpa using List.find?_some hfetch
  obtain ⟨k, hk, rfl⟩ := List.getElem_of_mem (List.mem_of_find?_eq_some hfetch)
  exact ⟨k, hk, haddress.symm.trans (hinv.addresses k hk), rfl⟩

/-- A fetch that finds nothing is at the end of the program. -/
theorem fetch_none_iff_of_inv {s : State} (hinv : Inv s) :
    s.fetch = none ↔ s.pc = 4 * s.prog.length :=
  (fetch_eq_none_iff s).trans (no_record_at_pc_iff_of_inv hinv)

/-- At the pc `4k` the fetch finds record `k`. -/
theorem fetch_eq_getElem_of_inv {s : State} (hinv : Inv s) {k : Nat} (hk : k < s.prog.length)
    (hpc : s.pc = 4 * k) : s.fetch = some s.prog[k] := by
  cases hfetch : s.fetch with
  | none =>
    have hend := (fetch_none_iff_of_inv hinv).mp hfetch
    omega
  | some r =>
    obtain ⟨k', hk', hpc', rfl⟩ := fetch_some_of_inv hinv hfetch
    obtain rfl : k = k' := by omega
    rfl

/-- Settles O24: the addresses `4k` tell the records apart. -/
theorem fetchFindsTheRecordAtThePc : Obligations.FetchFindsTheRecordAtThePc := fun _ hinv =>
  ⟨fun _ => fetch_eq_getElem_of_inv hinv, (fetch_none_iff_of_inv hinv).mpr⟩

/-! ### Every way a step ends keeps the invariant -/

/-- A state that halts where a machine may stop, with nothing else changed, meets the invariant again. -/
theorem inv_of_halted {s t : State} (hinv : Inv s) (hmem : t.mem = s.mem) (hregs : t.regs = s.regs)
    (hprog : t.prog = s.prog) (hpc : t.pc = s.pc) (hhalted : t.halted = true)
    (hstop : s.pc = 4 * s.prog.length ∨ ∃ r, s.fetch = some r ∧ r.faults)
    (hresult : t.result = none) : Inv t where
  memWf := hmem ▸ hinv.memWf
  zeroSlot := by simpa only [hregs] using hinv.zeroSlot
  addresses := by simpa only [hprog] using hinv.addresses
  decodes := hprog ▸ hinv.decodes
  pcRange := by simpa only [hprog, hpc] using hinv.pcRange
  passed := by simpa only [hprog, hpc] using hinv.passed
  emptyHalted := fun _ => hhalted
  haltedAt := fun _ => by rwa [hpc, hprog, fetch_congr s t hprog hpc]
  haltedResult := fun _ => hresult

theorem inv_haltedStep {s : State} (hinv : Inv s) (hhalt : s.halted = true) : Inv s.haltedStep :=
  inv_of_halted hinv rfl rfl rfl rfl hhalt (hinv.haltedAt hhalt) rfl

theorem inv_fetchMiss {s : State} (hinv : Inv s) (hmiss : s.fetch = none) : Inv s.fetchMiss :=
  inv_of_halted hinv rfl rfl rfl rfl rfl (.inl ((fetch_none_iff_of_inv hinv).mp hmiss)) rfl

theorem inv_raiseExecFault {s : State} {r : Record} {cause : FaultCause} (hinv : Inv s)
    (hfetch : s.fetch = some r) (hdec : decodeSource r.source = .ok (.opfault cause)) :
    Inv (s.raiseExecFault cause) :=
  inv_of_halted hinv rfl rfl rfl rfl rfl (.inr ⟨r, hfetch, cause, hdec⟩) rfl

/-- A success keeps the canonical form of the memory. -/
theorem mem_wf_of_success {s t : State} {before : List Event} {ann : Annotation}
    (h : Success s t before ann) (hwf : s.mem.wf) : t.mem.wf := by
  obtain ⟨-, hmem⟩ | ⟨a, v, hmem, -⟩ := h.memory
  · exact hmem ▸ hwf
  · exact hmem ▸ memWrite_wf _ _ _ hwf

/-- A record that does not fault is passed: the pc goes on to the next record or to the end. -/
theorem inv_of_success {s t : State} {r : Record} {before : List Event} {ann : Annotation}
    (hinv : Inv s) (hrun : s.halted = false) (hfetch : s.fetch = some r) (hr : ¬ r.faults)
    (h : Success s t before ann) : Inv t := by
  obtain ⟨hpc, hhalted, hprog, -, -⟩ := h.completed
  obtain ⟨k, hk, hpck, rfl⟩ := fetch_some_of_inv hinv hfetch
  have hrunning : t.halted ≠ true := by simp [hhalted, hrun]
  refine ⟨mem_wf_of_success h hinv.memWf, h.zeroSlot.trans hinv.zeroSlot, ?_, hprog ▸ hinv.decodes,
    ⟨k + 1, by rwa [hprog], by omega⟩, ?_, ?_, fun hh => absurd hh hrunning,
    fun hh => absurd hh hrunning⟩
  · simpa only [hprog] using hinv.addresses
  · simp only [hprog, hpc]
    intro j hj hlt
    obtain hbefore | rfl : j < k ∨ j = k := by omega
    · exact hinv.passed j hj (by omega)
    · exact hr
  · intro hempty
    rw [hprog] at hempty
    simp [hempty] at hk

/-- An instruction that the record at the pc decodes to keeps the invariant. -/
theorem inv_of_exec {s t : State} {r : Record} {i : Instr} (hinv : Inv s) (hrun : s.halted = false)
    (hfetch : s.fetch = some r) (hdec : decodeSource r.source = .ok i) (hexec : exec i s = .next t) :
    Inv t := by
  obtain ⟨cause, rfl, rfl⟩ | ⟨hi, before, ann, hsuccess⟩ := exec_next_cases hexec
  · exact inv_raiseExecFault hinv hfetch hdec
  · refine inv_of_success hinv hrun hfetch ?_ hsuccess
    rintro ⟨cause, hfault⟩
    exact hi cause (Except.ok.inj (hdec.symm.trans hfault))

theorem inv_of_step {s t : State} (hinv : Inv s) (hstep : step s = .next t) : Inv t := by
  obtain ⟨hhalt, rfl⟩ | ⟨-, hmiss, rfl⟩ | ⟨r, i, hrun, hfetch, hdec, hexec⟩ := step_next_cases hstep
  · exact inv_haltedStep hinv hhalt
  · exact inv_fetchMiss hinv hmiss
  · exact inv_of_exec hinv hrun hfetch hdec hexec

/-- Settles O50: a halted step, a fetch-miss, the failure path and a success each keep it. -/
theorem stepKeepsTheInvariant : Obligations.StepKeepsTheInvariant := fun _ _ => inv_of_step

/-! ### A step is never refused, and how it stops -/

/-- Every record of a state that meets the invariant decodes, so no step is refused. -/
theorem step_total_of_inv {s : State} (hinv : Inv s) : ∃ t, step s = .next t := by
  obtain ⟨-, h⟩ | ⟨-, -, h⟩ | ⟨r, -, hfetch, ⟨e, herror, -⟩ | ⟨i, -, h⟩⟩ := step_cases s
  · exact ⟨_, h⟩
  · exact ⟨_, h⟩
  · obtain ⟨⟨i, hok⟩, -⟩ := hinv.decodes r (List.mem_of_find?_eq_some hfetch)
    cases hok.symm.trans herror
  · exact h ▸ exec_total i s

/-- Settles O51: every record decodes, and every instruction has a next state. -/
theorem loadedMachineAlwaysSteps : Obligations.LoadedMachineAlwaysSteps := fun _ => step_total_of_inv

/-- A running step halts by a fetch-miss or by the failure path of the record at the pc. -/
theorem stop_cases {s t : State} (hrun : s.halted = false) (hstep : step s = .next t)
    (hhalt : t.halted = true) : (s.fetch = none ∧ t = s.fetchMiss)
      ∨ ∃ r cause, s.fetch = some r ∧ t = s.raiseExecFault cause := by
  obtain ⟨hhalted, -⟩ | ⟨-, hmiss, rfl⟩ | ⟨r, i, -, hfetch, -, hexec⟩ := step_next_cases hstep
  · simp [hrun] at hhalted
  · exact .inl ⟨hmiss, rfl⟩
  · obtain ⟨cause, -, rfl⟩ | ⟨-, before, ann, hsuccess⟩ := exec_next_cases hexec
    · exact .inr ⟨r, cause, hfetch, rfl⟩
    · obtain ⟨-, hsame, -⟩ := hsuccess.completed
      simp [hhalt, hrun] at hsame

/-- Settles O52: a fetch-miss is at `4N`, and the record of the failure path lies before it. -/
theorem stopIsVisibleInThePc : Obligations.StopIsVisibleInThePc := by
  intro s t hinv hrun hstep hhalt
  obtain ⟨hmiss, rfl⟩ | ⟨r, cause, hfetch, rfl⟩ := stop_cases hrun hstep hhalt
  · have hpc := (fetch_none_iff_of_inv hinv).mp hmiss
    simp [hpc]
  · obtain ⟨k, hk, hpc, -⟩ := fetch_some_of_inv hinv hfetch
    have hlt : s.pc < 4 * s.prog.length := by omega
    simp [hlt, hlt.ne]

/-- Settles O22: the step is the instruction the record decodes to, which is the failure path. -/
theorem faultingStepChangesOnlyHalted : Obligations.FaultingStepChangesOnlyHalted :=
  fun s _ cause hrun hfetch hdec =>
    ⟨s.raiseExecFault cause, (step_eq_exec_of_decode hrun hfetch hdec).trans (exec_opfault cause s),
      rfl, rfl, rfl, rfl, rfl, rfl, rfl⟩

/-- Settles O48: memory and program are empty, and the machine is halted at the end of it. -/
theorem powerOnMeetsTheInvariant : Obligations.PowerOnMeetsTheInvariant where
  memWf := reset_mem_wf
  zeroSlot := by decide
  addresses := fun k hk => absurd hk (Nat.not_lt_zero k)
  decodes := fun r hr => absurd hr List.not_mem_nil
  pcRange := ⟨0, le_rfl, rfl⟩
  passed := fun k hk => absurd hk (Nat.not_lt_zero k)
  emptyHalted := fun _ => rfl
  haltedAt := fun _ => .inl rfl
  haltedResult := fun _ => rfl

end Sys2Proof.Machine
end

