-- ==== Sys2Proof/Proofs/Runs.lean ====
section
/-!
PROOFS. Whole runs, and the environment's run driver (44_output_and_unknown.md R194,
46_host_interface.md R211).
-/

namespace Sys2Proof.Machine

/-- A run that ends in a next state has a first step with a next state, from which the rest goes on. -/
theorem run_succ_inv {n : Nat} {s t : State}
    (hrun : Host.Core.run Sys2Proof.core (n + 1) s = .next t) :
    ∃ u, step s = .next u ∧ Host.Core.run Sys2Proof.core n u = .next t := by
  cases hstep : step s with
  | next u => exact ⟨u, rfl, (run_succ_next n s u hstep).symm.trans hrun⟩
  | refused r => cases (run_succ_refused n s r hstep).symm.trans hrun
  | fault f => cases f

/-- A step that ends running is a success of a running machine. -/
theorem pc_of_running_step {s t : State} (hstep : step s = .next t) (hrun : t.halted = false) :
    s.halted = false ∧ t.pc = s.pc + 4 := by
  obtain ⟨hhalt, rfl⟩ | ⟨-, -, rfl⟩ | ⟨r, i, hrunning, -, -, hexec⟩ := step_next_cases hstep
  · cases hhalt.symm.trans hrun
  · cases hrun
  · obtain ⟨cause, -, rfl⟩ | ⟨-, before, ann, hsuccess⟩ := exec_next_cases hexec
    · cases hrun
    · obtain ⟨hpc, -⟩ := hsuccess.completed
      exact ⟨hrunning, hpc⟩

theorem pc_of_running_run {n : Nat} {s t : State}
    (hrun : Host.Core.run Sys2Proof.core n s = .next t) (hrunning : t.halted = false) :
    s.halted = false ∧ t.pc = s.pc + 4 * n := by
  induction n generalizing s with
  | zero =>
    obtain rfl := Host.Outcome.next.inj hrun
    exact ⟨hrunning, rfl⟩
  | succ n ih =>
    obtain ⟨u, hstep, hrest⟩ := run_succ_inv hrun
    obtain ⟨hu, hpc⟩ := ih hrest
    obtain ⟨hs, hpcu⟩ := pc_of_running_step hstep hu
    exact ⟨hs, by omega⟩

/-- Settles O53: from the end of the run backwards, every state before a running one is running. -/
theorem pcCountsTheSteps : Obligations.PcCountsTheSteps := fun _ _ _ => pc_of_running_run

/-- A run from a state that meets the invariant ends in one, with the same program. -/
theorem run_total_of_inv (n : Nat) {s : State} (hinv : Inv s) :
    ∃ t : State, Host.Core.run Sys2Proof.core n s = .next t ∧ Inv t ∧ t.prog = s.prog := by
  induction n generalizing s with
  | zero => exact ⟨s, rfl, hinv, rfl⟩
  | succ n ih =>
    obtain ⟨u, hstep⟩ := step_total_of_inv hinv
    obtain ⟨t, hrun, ht, hprog⟩ := ih (inv_of_step hinv hstep)
    exact ⟨t, (run_succ_next n s u hstep).trans hrun, ht, hprog.trans (prog_of_step hstep)⟩

/-- Settles O54: a machine still running after `n` steps has a pc of at least `4n`, and no pc is above
`4N`. -/
theorem everyRunHalts : Obligations.EveryRunHalts := by
  intro s n hinv hn
  obtain ⟨t, hrun, ht, hprog⟩ := run_total_of_inv n hinv
  refine ⟨t, hrun, ?_⟩
  by_contra hhalt
  obtain ⟨-, hpc⟩ := pc_of_running_run hrun (eq_false_of_ne_true hhalt)
  obtain ⟨k, hk, hpck⟩ := ht.pcRange
  rw [hprog] at hk
  omega

/-! ### The run driver -/

/-- A step that returned `false` has left the machine halted. -/
theorem halted_of_result_none {s t : State} (hstep : step s = .next t) (hresult : t.result = none) :
    t.halted = true := by
  obtain ⟨hhalt, rfl⟩ | ⟨-, -, rfl⟩ | ⟨r, i, -, -, -, hexec⟩ := step_next_cases hstep
  · exact hhalt
  · rfl
  · obtain ⟨cause, -, rfl⟩ | ⟨-, before, ann, hsuccess⟩ := exec_next_cases hexec
    · rfl
    · obtain ⟨-, -, -, -, hsome⟩ := hsuccess.completed
      simp [hresult] at hsome

theorem driveFor_succ_of_some {fuel : Nat} {s t : State} (hstep : step s = .next t)
    (hresult : t.result.isSome = true) : driveFor (fuel + 1) s = driveFor fuel t := by
  simp [driveFor, hstep, hresult]

theorem driveFor_succ_of_none {fuel : Nat} {s t : State} (hstep : step s = .next t)
    (hresult : t.result = none) : driveFor (fuel + 1) s = .next t := by
  simp [driveFor, hstep, hresult]

/-- The driver takes `n ≤ fuel` plain steps, running before the last of them, and stops halted or with
the fuel used up. -/
theorem driveFor_spec (fuel : Nat) {s : State} (hinv : Inv s) :
    ∃ n t, driveFor fuel s = .next t ∧ Host.Core.run Sys2Proof.core n s = .next t
      ∧ (∀ k u, 0 < k → k < n → Host.Core.run Sys2Proof.core k s = .next u → State.halted u = false)
      ∧ n ≤ fuel ∧ (t.halted = true ∨ n = fuel) := by
  induction fuel generalizing s with
  | zero => exact ⟨0, s, rfl, rfl, fun k _ _ hk => absurd hk (Nat.not_lt_zero k), le_rfl, .inr rfl⟩
  | succ fuel ih =>
    obtain ⟨t, hstep⟩ := step_total_of_inv hinv
    have ht := inv_of_step hinv hstep
    cases hresult : t.result with
    | none =>
      exact ⟨1, t, driveFor_succ_of_none hstep hresult, run_succ_next 0 s t hstep,
        fun k _ hpos hk => by omega, by omega, .inl (halted_of_result_none hstep hresult)⟩
    | some result =>
      have hrunning : t.halted = false := by
        by_contra hhalt
        simp [ht.haltedResult (eq_true_of_ne_false hhalt)] at hresult
      obtain ⟨n, u, hdrive, hrun, hbefore, hle, hend⟩ := ih ht
      refine ⟨n + 1, u, (driveFor_succ_of_some hstep (by rw [hresult]; rfl)).trans hdrive,
        (run_succ_next n s t hstep).trans hrun, ?_, by omega, hend.imp_right (by omega)⟩
      intro k v hpos hk hrunk
      obtain ⟨k, rfl⟩ := Nat.exists_eq_succ_of_ne_zero hpos.ne'
      have hrest := (run_succ_next k s t hstep).symm.trans hrunk
      cases k with
      | zero => exact Host.Outcome.next.inj hrest ▸ hrunning
      | succ k => exact hbefore (k + 1) v (by omega) (by omega) hrest

/-- Settles O58: the fuel of a run is the lesser of the ceiling and the outside stop. -/
theorem driverStopsAtTheFirstFalse : Obligations.DriverStopsAtTheFirstFalse := by
  intro ceiling stopAfter s hinv
  obtain ⟨n, t, hdrive, hrun, hbefore, hle, hend⟩ :=
    driveFor_spec (min ceiling (stopAfter.getD ceiling)) hinv
  refine ⟨n, t, hdrive, hrun, hbefore, by omega, ?_, ?_⟩
  · rintro k rfl
    rw [Option.getD_some] at hle
    omega
  · refine hend.imp_right fun hn => ?_
    cases stopAfter with
    | none => exact .inl (by rw [hn, Option.getD_none, min_self])
    | some k =>
      rw [Option.getD_some] at hn
      rw [Option.some.injEq]
      omega

end Sys2Proof.Machine
end

