-- ==== Sys2Proof/Proofs/OperandTokens.lean ====
section
/-!
PROOFS. Register and immediate tokens, and the operands of each format (30_encoding.md R86 to R94).
-/

namespace Sys2Proof

/-! ### Digits -/

/-- The digits are the characters from `0` to `9` (R104). -/
theorem isDigit_iff (c : Char) : isDigit c = true ↔ '0' ≤ c ∧ c ≤ '9' := by
  simp only [isDigit, Bool.and_eq_true, decide_eq_true_eq]
  rfl

theorem isDigit_eq_false_iff (c : Char) : isDigit c = false ↔ ¬ ('0' ≤ c ∧ c ≤ '9') := by
  rw [← isDigit_iff, Bool.not_eq_true]

theorem resolveRegister_append_singleton_of_digit (t : Text) {c : Char} (hc : isDigit c = true) :
    resolveRegister (t ++ [c]) = 10 * resolveRegister t + (c.toNat - 48) := by
  simp [resolveRegister, digitsValue, hc]

theorem resolveRegister_append_singleton_of_not_digit (t : Text) {c : Char} (hc : isDigit c = false) :
    resolveRegister (t ++ [c]) = resolveRegister t := by
  simp [resolveRegister, hc]

theorem resolveRegister_of_no_digit {t : Text} (ht : ∀ c ∈ t, isDigit c = false) :
    resolveRegister t = 0 := by
  have hnil : t.filter isDigit = [] := List.filter_eq_nil_iff.mpr fun c hc => by simp [ht c hc]
  rw [resolveRegister, hnil]
  rfl

/-- Of a token of digits no character is left out. -/
theorem resolveRegister_of_all_digits {t : Text} (ht : ∀ c ∈ t, isDigit c = true) :
    resolveRegister t = digitsValue t := by
  rw [resolveRegister, List.filter_eq_self.mpr ht]

/-! ### Immediate tokens -/

theorem parseUnsigned_of_all_digits {t : Text} (hne : t ≠ []) (ht : ∀ c ∈ t, isDigit c = true) :
    parseUnsigned t = .value (resolveRegister t) := by
  obtain ⟨c, t, rfl⟩ := List.exists_cons_of_ne_nil hne
  rw [resolveRegister_of_all_digits ht]
  simp only [List.forall_mem_cons] at ht
  simpa [parseUnsigned, ht.1] using ht.2

theorem parseUnsigned_of_not_digit {c : Char} (t : Text) (hc : isDigit c = false) :
    parseUnsigned (c :: t) = .notInteger := by
  simp [parseUnsigned, hc]

theorem parseUnsigned_of_digit_and_more {d : Char} {t : Text} (hd : isDigit d = true)
    (ht : ∃ c ∈ t, isDigit c = false) : parseUnsigned (d :: t) = .partlyNumeric := by
  simp [parseUnsigned, hd, ht]

/-- A token without a sign in front is read as it stands. -/
theorem parseImm_of_no_sign {c : Char} (t : Text) (hminus : c ≠ '-') (hplus : c ≠ '+') :
    parseImm (c :: t) = parseUnsigned (c :: t) := by
  simp [parseImm, hminus, hplus]

/-- A digit is no sign. -/
theorem parseImm_of_digit {d : Char} (t : Text) (hd : isDigit d = true) :
    parseImm (d :: t) = parseUnsigned (d :: t) := by
  refine parseImm_of_no_sign t ?_ ?_ <;>
  · rintro rfl
    cases hd

theorem parseImm_minus_of_value {t : Text} {v : Int} (ht : parseUnsigned t = .value v) :
    parseImm ('-' :: t) = .value (-v) := by
  simp [parseImm, ht]

theorem parseImm_minus_of_notInteger {t : Text} (ht : parseUnsigned t = .notInteger) :
    parseImm ('-' :: t) = .notInteger := by
  simp [parseImm, ht]

theorem parseImm_minus_of_partlyNumeric {t : Text} (ht : parseUnsigned t = .partlyNumeric) :
    parseImm ('-' :: t) = .partlyNumeric := by
  simp [parseImm, ht]

/-- A plus sign is never part of a value. -/
theorem parseImm_plus (c : Char) (t : Text) :
    parseImm ('+' :: c :: t) = if isDigit c then .partlyNumeric else .notInteger := rfl


/-! ### The operands of each format -/

/-- A register token in range is read as the register it resolves to (R87). -/
theorem readReg_eq_ok {operands : List Text} {j : Nat} {t : Text} {a : Reg}
    (hj : operands[j]? = some t) (ha : resolveRegister t = a.val) : readReg operands j = .ok a := by
  simp [readReg, hj, ha]

/-- A register token out of range is refused (R88). -/
theorem readReg_eq_refuse {operands : List Text} {j : Nat} {t : Text} (hj : operands[j]? = some t)
    (ht : 32 ≤ resolveRegister t) : readReg operands j = .error (.refuse .registerOutOfRange) := by
  simp [readReg, hj, ht]

theorem readReg_eq_missing {operands : List Text} {j : Nat} (hj : operands[j]? = none) :
    readReg operands j = .error (.fault .missingOperand) := by
  simp [readReg, hj]

/-- A register token that is there is read or refused. -/
theorem readReg_of_present {operands : List Text} {j : Nat} {t : Text} (hj : operands[j]? = some t) :
    (∃ a, readReg operands j = .ok a)
      ∨ readReg operands j = .error (.refuse .registerOutOfRange) := by
  obtain ht | ht := Nat.lt_or_ge (resolveRegister t) 32
  · exact .inl ⟨⟨_, ht⟩, readReg_eq_ok hj rfl⟩
  · exact .inr (readReg_eq_refuse hj ht)

/-- Among tokens that are all in range, a register is read or missing. -/
theorem readReg_of_in_range {operands : List Text} (hrange : ∀ t ∈ operands, resolveRegister t < 32)
    (j : Nat) : (∃ a, readReg operands j = .ok a)
      ∨ readReg operands j = .error (.fault .missingOperand) := by
  cases hj : operands[j]? with
  | none => exact .inr (readReg_eq_missing hj)
  | some t => exact .inl ⟨⟨_, hrange t (List.mem_of_getElem? hj)⟩, readReg_eq_ok hj rfl⟩

/-- An integer token is read as its value (R89 (a)). -/
theorem readImm_eq_ok {operands : List Text} {j : Nat} {t : Text} {v : Int}
    (hj : operands[j]? = some t) (himm : parseImm t = .value v) : readImm operands j = .ok v := by
  simp [readImm, hj, himm]

/-- A token without a leading integer faults (R89 (b)). -/
theorem readImm_eq_fault {operands : List Text} {j : Nat} {t : Text}
    (hj : operands[j]? = some t) (himm : parseImm t = .notInteger) :
    readImm operands j = .error (.fault .badImmediate) := by
  simp [readImm, hj, himm]

/-- A partly numeric token is refused (R89 (c)). -/
theorem readImm_eq_refuse {operands : List Text} {j : Nat} {t : Text}
    (hj : operands[j]? = some t) (himm : parseImm t = .partlyNumeric) :
    readImm operands j = .error (.refuse .partlyNumericImmediate) := by
  simp [readImm, hj, himm]

theorem readImm_eq_missing {operands : List Text} {j : Nat} (hj : operands[j]? = none) :
    readImm operands j = .error (.fault .missingOperand) := by
  simp [readImm, hj]

/-- The reading that formats R, I, L and S have in common: two registers, then `third` (R86). -/
def twoRegisters (operands : List Text) (third : Reg → Reg → Except OperandStop Instr) :
    Except OperandStop Instr :=
  (readReg operands 0).bind fun a => (readReg operands 1).bind fun b => third a b

theorem formatR_eq_twoRegisters (mk : Reg → Reg → Reg → Instr) (operands : List Text) :
    formatR mk operands
      = twoRegisters operands fun a b => (readReg operands 2).map fun c => mk a b c := by
  unfold formatR twoRegisters
  cases readReg operands 0 <;> cases readReg operands 1 <;> cases readReg operands 2 <;> rfl

theorem formatI_eq_twoRegisters (mk : Reg → Reg → Int → Instr) (operands : List Text) :
    formatI mk operands
      = twoRegisters operands fun a b => (readImm operands 2).map fun v => mk a b v := by
  unfold formatI twoRegisters
  cases readReg operands 0 <;> cases readReg operands 1 <;> cases readImm operands 2 <;> rfl

theorem formatP_eq_map (mk : Reg → Instr) (operands : List Text) :
    formatP mk operands = (readReg operands 0).map mk := by
  unfold formatP
  cases readReg operands 0 <;> rfl

theorem twoRegisters_of_ok {operands : List Text} {third : Reg → Reg → Except OperandStop Instr}
    {a b : Reg} (ha : readReg operands 0 = .ok a) (hb : readReg operands 1 = .ok b) :
    twoRegisters operands third = third a b := by
  rw [twoRegisters, ha, Except.bind, hb, Except.bind]

/-- Where the third operand is missing, the first operand that cannot be read is a missing one. -/
theorem twoRegisters_missing {operands : List Text} {third : Reg → Reg → Except OperandStop Instr}
    (hrange : ∀ t ∈ operands, resolveRegister t < 32)
    (hthird : ∀ a b, third a b = .error (.fault .missingOperand)) :
    twoRegisters operands third = .error (.fault .missingOperand) := by
  obtain ⟨a, ha⟩ | ha := readReg_of_in_range hrange 0
  · obtain ⟨b, hb⟩ | hb := readReg_of_in_range hrange 1
    · rw [twoRegisters_of_ok ha hb, hthird]
    · rw [twoRegisters, ha, Except.bind, hb, Except.bind]
  · rw [twoRegisters, ha, Except.bind]

/-- The tokens before one that is there are there. -/
theorem exists_getElem?_of_le {operands : List Text} {i j : Nat} {t : Text}
    (hj : operands[j]? = some t) (hi : i ≤ j) : ∃ u, operands[i]? = some u := by
  obtain ⟨hlen, -⟩ := List.getElem?_eq_some_iff.mp hj
  exact ⟨_, List.getElem?_eq_getElem (by omega)⟩

/-- A third operand that is refused is so after two registers that are read or refused alike. -/
theorem twoRegisters_refused_third {operands : List Text}
    {third : Reg → Reg → Except OperandStop Instr} {t : Text} (hsecond : operands[2]? = some t)
    (hthird : ∀ a b, third a b = .error (.refuse .registerOutOfRange)) :
    twoRegisters operands third = .error (.refuse .registerOutOfRange) := by
  obtain ⟨_, hzero⟩ := exists_getElem?_of_le hsecond (i := 0) (by omega)
  obtain ⟨_, hone⟩ := exists_getElem?_of_le hsecond (i := 1) (by omega)
  obtain ⟨a, ha⟩ | ha := readReg_of_present hzero
  · obtain ⟨b, hb⟩ | hb := readReg_of_present hone
    · rw [twoRegisters_of_ok ha hb, hthird]
    · rw [twoRegisters, ha, Except.bind, hb, Except.bind]
  · rw [twoRegisters, ha, Except.bind]

/-- The first or the second register out of range is refused, and no earlier operand is missing. -/
theorem twoRegisters_refused {operands : List Text} {third : Reg → Reg → Except OperandStop Instr}
    {j : Nat} {t : Text} (hj : operands[j]? = some t) (ht : 32 ≤ resolveRegister t) (hle : j ≤ 1) :
    twoRegisters operands third = .error (.refuse .registerOutOfRange) := by
  have hrefuse := readReg_eq_refuse hj ht
  obtain rfl | rfl : j = 0 ∨ j = 1 := by omega
  · rw [twoRegisters, hrefuse, Except.bind]
  · obtain ⟨_, hzero⟩ := exists_getElem?_of_le hj (Nat.zero_le 1)
    obtain ⟨a, ha⟩ | ha := readReg_of_present hzero
    · rw [twoRegisters, ha, Except.bind, hrefuse, Except.bind]
    · rw [twoRegisters, ha, Except.bind]

/-! ### The mnemonics of each format -/

/-- The mnemonics of format R (R86). -/
def registerMnemonics : List (String × (Reg → Reg → Reg → Instr)) :=
  [("ADD", Instr.add), ("SUB", Instr.sub), ("AND", Instr.and), ("OR", Instr.or),
    ("SLT", Instr.slt), ("MULT", Instr.mult), ("SLL", Instr.sll)]

/-- The mnemonics of formats I, L and S (R86). -/
def immediateMnemonics : List (String × (Reg → Reg → Int → Instr)) :=
  [("ADDI", Instr.addi), ("SLTI", Instr.slti), ("LW", Instr.lw), ("SW", Instr.sw)]

/-- The twelve mnemonics by format (R92). -/
theorem recognisedMnemonics_eq : recognisedMnemonics
    = registerMnemonics.map (fun p => p.1.toList) ++ immediateMnemonics.map (fun p => p.1.toList)
      ++ ["PRINT".toList] := rfl

theorem readOperands_register : ∀ p ∈ registerMnemonics, ∀ operands,
    readOperands p.1.toList operands = formatR p.2 operands := by
  simp only [registerMnemonics, List.forall_mem_cons]
  exact ⟨fun _ => rfl, fun _ => rfl, fun _ => rfl, fun _ => rfl, fun _ => rfl, fun _ => rfl,
    fun _ => rfl, List.forall_mem_nil _⟩

theorem readOperands_immediate : ∀ p ∈ immediateMnemonics, ∀ operands,
    readOperands p.1.toList operands = formatI p.2 operands := by
  simp only [immediateMnemonics, List.forall_mem_cons]
  exact ⟨fun _ => rfl, fun _ => rfl, fun _ => rfl, fun _ => rfl, List.forall_mem_nil _⟩

theorem readOperands_print (operands : List Text) :
    readOperands "PRINT".toList operands = formatP .print operands := rfl

/-- No mnemonic has both kinds of format. -/
theorem immediate_not_register : ∀ p ∈ immediateMnemonics,
    p.1.toList ∉ ["ADD", "SUB", "AND", "OR", "SLT", "MULT", "SLL"].map String.toList := by
  decide

/-- A recognised mnemonic has one of the three kinds of format. -/
theorem recognised_cases {m : Text} (hm : m ∈ recognisedMnemonics) :
    (∃ p ∈ registerMnemonics, m = p.1.toList) ∨ (∃ p ∈ immediateMnemonics, m = p.1.toList)
      ∨ m = "PRINT".toList := by
  rw [recognisedMnemonics_eq, List.mem_append, List.mem_append, List.mem_singleton] at hm
  obtain (h | h) | h := hm
  · obtain ⟨p, hp, rfl⟩ := List.mem_map.mp h
    exact .inl ⟨p, hp, rfl⟩
  · obtain ⟨p, hp, rfl⟩ := List.mem_map.mp h
    exact .inr (.inl ⟨p, hp, rfl⟩)
  · exact .inr (.inr h)

/-- A token list is read by the format of its mnemonic. -/
theorem decodeTokens_cons (m : Text) (operands : List Text) :
    decodeTokens (m :: operands) = settleOperands (readOperands (upper m) operands) := rfl

/-- A mnemonic outside the twelve reads no operand (R93, R94). -/
theorem readOperands_of_not_recognised {m : Text} (hm : m ∉ recognisedMnemonics)
    (operands : List Text) :
    readOperands m operands = .ok (if m = "BEQ".toList then .beq else .unknown (some m)) := by
  by_cases hbeq : m = "BEQ".toList
  · subst hbeq
    rfl
  · have hkeys : mnemonicMap.map Prod.fst = recognisedMnemonics ++ ["BEQ".toList] := rfl
    have hnone : mnemonicMap.lookup m = none := by
      refine List.lookup_eq_none_iff.mpr fun p hp => ?_
      have hkey : p.1 ∈ recognisedMnemonics ++ ["BEQ".toList] := hkeys ▸ List.mem_map_of_mem hp
      rw [bne_iff_ne]
      rintro rfl
      obtain h | h := List.mem_append.mp hkey
      · exact hm h
      · exact hbeq (List.mem_singleton.mp h)
    rw [readOperands, hnone, if_neg hbeq]

end Sys2Proof

namespace Sys2Proof.Machine

/-- Settles O6: the fold over the digits of the token, with one character more at its end. -/
theorem registerTokenReadsItsDigits : Obligations.RegisterTokenReadsItsDigits := by
  refine ⟨fun t ht => ?_, fun t c hc => ?_, fun t c hlow hhigh => ?_⟩
  · exact resolveRegister_of_no_digit fun c hc => (isDigit_eq_false_iff c).mpr (ht c hc)
  · exact resolveRegister_append_singleton_of_not_digit t ((isDigit_eq_false_iff c).mpr hc)
  · exact resolveRegister_append_singleton_of_digit t ((isDigit_iff c).mpr ⟨hlow, hhigh⟩)

/-- Settles O7: the sign is taken off, and the rest is digits, begins with a digit, or does not. -/
theorem immediateTokenHasThreeCases : Obligations.ImmediateTokenHasThreeCases := by
  refine ⟨fun ds hne hds => ?_, ⟨rfl, rfl, rfl⟩, fun c t hc => ?_, fun d t hlow hhigh => ?_⟩
  · have hdigits : ∀ c ∈ ds, isDigit c = true := fun c hc => (isDigit_iff c).mpr (hds c hc)
    have hvalue := parseUnsigned_of_all_digits hne hdigits
    obtain ⟨d, ds, rfl⟩ := List.exists_cons_of_ne_nil hne
    exact ⟨(parseImm_of_digit ds (hdigits d List.mem_cons_self)).trans hvalue,
      parseImm_minus_of_value hvalue⟩
  · have hnot := (isDigit_eq_false_iff c).mpr hc
    have hbad := parseUnsigned_of_not_digit t hnot
    exact ⟨fun hminus hplus => (parseImm_of_no_sign t hminus hplus).trans hbad,
      parseImm_minus_of_notInteger hbad, by rw [parseImm_plus, hnot]; rfl⟩
  · have hdigit := (isDigit_iff d).mpr ⟨hlow, hhigh⟩
    refine ⟨by rw [parseImm_plus, hdigit]; rfl, fun ⟨c, hc, hnot⟩ => ?_⟩
    have hpartly := parseUnsigned_of_digit_and_more hdigit ⟨c, hc, (isDigit_eq_false_iff c).mpr hnot⟩
    exact ⟨(parseImm_of_digit t hdigit).trans hpartly, parseImm_minus_of_partlyNumeric hpartly⟩

/-- Settles O8: each format reads the first tokens by their positions. -/
theorem operandsAreReadByPosition : Obligations.OperandsAreReadByPosition := by
  refine ⟨?_, ?_, ?_⟩
  · intro p hp m t₁ t₂ t₃ rest a b c hm ha hb hc
    rw [decodeTokens_cons, hm, readOperands_register p hp, formatR_eq_twoRegisters,
      twoRegisters_of_ok (readReg_eq_ok rfl ha) (readReg_eq_ok rfl hb), readReg_eq_ok rfl hc]
    rfl
  · intro p hp m t₁ t₂ t₃ rest a b hm ha hb
    rw [decodeTokens_cons, hm, readOperands_immediate p hp, formatI_eq_twoRegisters,
      twoRegisters_of_ok (readReg_eq_ok rfl ha) (readReg_eq_ok rfl hb)]
    exact ⟨fun v himm => by rw [readImm_eq_ok rfl himm]; rfl,
      fun himm => by rw [readImm_eq_fault rfl himm]; rfl,
      fun himm => by rw [readImm_eq_refuse rfl himm]; rfl⟩
  · intro m t₁ rest a hm ha
    rw [decodeTokens_cons, hm, readOperands_print, formatP_eq_map, readReg_eq_ok rfl ha]
    rfl

/-- Settles O9: registers in range are read or missing, and the third operand is not there. -/
theorem missingOperandIsAFault : Obligations.MissingOperandIsAFault := by
  refine ⟨fun m operands hm hprint hlen hrange => ?_, fun m hm => ?_⟩
  · have hthird : operands[2]? = none := List.getElem?_eq_none (by omega)
    rw [decodeTokens_cons]
    obtain ⟨p, hp, hmp⟩ | ⟨p, hp, hmp⟩ | hmp := recognised_cases hm
    · rw [hmp, readOperands_register p hp, formatR_eq_twoRegisters,
        twoRegisters_missing hrange fun a b => by rw [readReg_eq_missing hthird]; rfl]
      rfl
    · rw [hmp, readOperands_immediate p hp, formatI_eq_twoRegisters,
        twoRegisters_missing hrange fun a b => by rw [readImm_eq_missing hthird]; rfl]
      rfl
    · exact absurd hmp hprint
  · rw [decodeTokens_cons, hm]
    rfl

/-- Format R refuses each of its three registers. -/
theorem formatR_refused (mk : Reg → Reg → Reg → Instr) {operands : List Text} {j : Nat} {t : Text}
    (hj : operands[j]? = some t) (ht : 32 ≤ resolveRegister t) (hle : j ≤ 2) :
    formatR mk operands = .error (.refuse .registerOutOfRange) := by
  rw [formatR_eq_twoRegisters]
  obtain hle | rfl : j ≤ 1 ∨ j = 2 := by omega
  · exact twoRegisters_refused hj ht hle
  · exact twoRegisters_refused_third hj fun a b => by rw [readReg_eq_refuse hj ht]; rfl

/-- Settles O10: the registers before it are read or refused, so the one out of range is refused. -/
theorem registerIndexAbove31IsRefused : Obligations.RegisterIndexAbove31IsRefused := by
  intro m operands j t hm hj ht hposition
  rw [decodeTokens_cons]
  obtain ⟨p, hp, hmp⟩ | ⟨p, hp, hmp⟩ | hmp := recognised_cases hm
  · rw [hmp, readOperands_register p hp, formatR_refused p.2 hj ht (by omega)]
    rfl
  · have hle : j ≤ 1 := by
      obtain h | ⟨h, -⟩ | ⟨-, hregister⟩ := hposition
      · omega
      · omega
      · exact absurd (hmp ▸ hregister) (immediate_not_register p hp)
    rw [hmp, readOperands_immediate p hp, formatI_eq_twoRegisters, twoRegisters_refused hj ht hle]
    rfl
  · have hzero : j = 0 := by
      obtain h | ⟨-, hne⟩ | ⟨-, hregister⟩ := hposition
      · exact h
      · exact absurd hmp hne
      · exact absurd (hmp ▸ hregister) (by decide)
    subst hzero
    rw [hmp, readOperands_print, formatP_eq_map, readReg_eq_refuse hj ht]
    rfl

/-- Settles O11: the mnemonic map has no entry for it but that of the branch-equal name. -/
theorem unrecognisedMnemonicReadsNoOperand : Obligations.UnrecognisedMnemonicReadsNoOperand := by
  intro m operands hm
  rw [decodeTokens_cons, readOperands_of_not_recognised hm]
  rfl

end Sys2Proof.Machine
end

