-- ==== Sys2Proof/Proofs/LinesAndTokens.lean ====
section
/-!
PROOFS. How a text is cut into lines and a line into tokens (30_encoding.md R82 to R84, R103, R104).
-/

namespace Sys2Proof

/-! ### The characters that cut -/

/-- The five whitespace characters (R104). -/
theorem isWhitespace_iff (c : Char) :
    isWhitespace c = true ↔ c ∈ [' ', '\t', '\r', Char.ofNat 11, Char.ofNat 12] := by
  simp [isWhitespace, ← Char.toNat_inj, or_assoc]

/-- The characters at which a line is cut into tokens: whitespace, and what is treated like it (R83). -/
def isSeparator (c : Char) : Bool := isWhitespace c || isPunctuation c

/-- The eight separators (R83, R104). -/
theorem isSeparator_iff (c : Char) : isSeparator c = true
    ↔ c ∈ [' ', '\t', '\r', Char.ofNat 11, Char.ofNat 12, ',', '(', ')'] := by
  simp [isSeparator, isWhitespace, isPunctuation, ← Char.toNat_inj, or_assoc]

theorem isSeparator_eq_false_iff (c : Char) : isSeparator c = false
    ↔ c ∉ [' ', '\t', '\r', Char.ofNat 11, Char.ofNat 12, ',', '(', ')'] := by
  rw [← isSeparator_iff, Bool.not_eq_true]

/-- The pieces hold the characters that do not cut, in order. -/
theorem flatten_piecesBetween (p : Char → Bool) (s : Text) :
    (piecesBetween p s).flatten = s.filter fun c => !p c := by
  induction s with
  | nil => rfl
  | cons c s ih =>
    cases hc : p c with
    | true => simp [piecesBetween, hc, ih]
    | false => cases hpieces : piecesBetween p s <;> simp_all [piecesBetween]

/-- A piece holds characters of the text that do not cut. -/
theorem mem_of_mem_piecesBetween {p : Char → Bool} {s t : Text} (ht : t ∈ piecesBetween p s)
    {c : Char} (hc : c ∈ t) : p c = false ∧ c ∈ s := by
  have hmem : c ∈ s.filter fun c => !p c :=
    flatten_piecesBetween p s ▸ List.mem_flatten.mpr ⟨t, ht, hc⟩
  simpa [and_comm] using hmem

/-! ### Tokens -/

/-- A line is cut into tokens at its separators, and the empty pieces are dropped (R83). -/
theorem tokens_eq (s : Text) :
    tokens s = (piecesBetween isSeparator s).filter fun t => !t.isEmpty := by
  unfold tokens
  congr 1
  induction s with
  | nil => rfl
  | cons c s ih =>
    rw [List.map_cons, piecesBetween, piecesBetween, ih, isSeparator]
    cases hpunct : isPunctuation c with
    | true =>
      have hspace : isWhitespace ' ' = true := rfl
      simp [hspace]
    | false => simp

theorem tokens_separator_cons {c : Char} (hc : isSeparator c = true) (rest : Text) :
    tokens (c :: rest) = tokens rest := by
  simp [tokens_eq, piecesBetween, hc]

theorem tokens_of_no_separator {w : Text} (hne : w ≠ []) (hw : ∀ c ∈ w, isSeparator c = false) :
    tokens w = [w] := by
  simp [tokens_eq, piecesBetween_of_forall_not isSeparator w hw, hne]

theorem tokens_append_separator {w : Text} (hne : w ≠ []) (hw : ∀ c ∈ w, isSeparator c = false)
    {c : Char} (hc : isSeparator c = true) (rest : Text) :
    tokens (w ++ c :: rest) = w :: tokens rest := by
  simp [tokens_eq, piecesBetween_append_cons isSeparator w c rest hw hc, hne]

/-- A token is not empty, and holds characters of the line that are no separators. -/
theorem of_mem_tokens {s t : Text} (ht : t ∈ tokens s) :
    t ≠ [] ∧ ∀ c ∈ t, isSeparator c = false ∧ c ∈ s := by
  rw [tokens_eq, List.mem_filter] at ht
  obtain ⟨hpiece, hne⟩ := ht
  exact ⟨by simpa using hne, fun c => mem_of_mem_piecesBetween hpiece⟩

/-- The pieces depend on which characters cut, and not on which of them it is. -/
theorem piecesBetween_congr {p : Char → Bool} {s s' : Text}
    (h : List.Forall₂ (fun c d => c = d ∨ (p c = true ∧ p d = true)) s s') :
    piecesBetween p s = piecesBetween p s' := by
  induction h with
  | nil => rfl
  | cons hhead _ ih =>
    obtain rfl | ⟨hc, hd⟩ := hhead
    · simp only [piecesBetween, ih]
    · simp only [piecesBetween, hc, hd, if_true, ih]

/-! ### Letter case and ASCII -/

/-- A lower-case letter goes to the upper-case one, whose code is 32 lower. -/
theorem toNat_upperChar_of_lower {c : Char} (hc : 97 ≤ c.toNat ∧ c.toNat ≤ 122) :
    (upperChar c).toNat = c.toNat - 32 := by
  have hvalid : (c.toNat - 32).isValidChar := .inl (by omega)
  simp [upperChar, hc, Char.ofNat, hvalid]

theorem upperChar_of_not_lower {c : Char} (hc : ¬ (97 ≤ c.toNat ∧ c.toNat ≤ 122)) :
    upperChar c = c := by
  simp [upperChar, hc]

theorem upperChar_upperChar (c : Char) : upperChar (upperChar c) = upperChar c := by
  by_cases hlower : 97 ≤ c.toNat ∧ c.toNat ≤ 122
  · have hcode := toNat_upperChar_of_lower hlower
    exact upperChar_of_not_lower (by omega)
  · rw [upperChar_of_not_lower hlower, upperChar_of_not_lower hlower]

theorem upper_upper (s : Text) : upper (upper s) = upper s := by
  simp [upper, upperChar_upperChar]

theorem all_isAscii_iff (s : Text) : s.all isAscii = true ↔ ∀ c ∈ s, c.toNat < 128 := by
  simp only [List.all_eq_true, isAscii, decide_eq_true_eq, Nat.lt_succ_iff]

theorem decodeText_of_ascii {s : Text} (hs : ∀ c ∈ s, c.toNat < 128) :
    decodeText s = decodeTokens (tokens s) := by
  rw [decodeText, if_pos ((all_isAscii_iff s).mpr hs)]

theorem decodeText_of_not_ascii {s : Text} (hs : ¬ ∀ c ∈ s, c.toNat < 128) :
    decodeText s = .error .nonAsciiText := by
  rw [decodeText, if_neg (mt (all_isAscii_iff s).mp hs)]

/-! ### Lines -/

/-- A trimmed line is accepted or dropped by itself (R82). -/
theorem filter_isAccepted_singleton (t : Text) :
    [t].filter isAccepted = if t = [] ∨ t.head? = some '#' then [] else [t] := by
  cases t with
  | nil => rfl
  | cons c t => by_cases hc : c = '#' <;> simp [isAccepted, hc]

/-- The line feed is the only character that cuts a text into lines (R82). -/
theorem isLineFeed_eq_false {line : Text} (hline : '\n' ∉ line) : ∀ c ∈ line, isLineFeed c = false := by
  intro c hc
  refine beq_false_of_ne fun hcode => hline ?_
  obtain rfl : c = '\n' := Char.toNat_inj.mp hcode
  exact hc

theorem acceptedLines_of_no_lineFeed {line : Text} (hline : '\n' ∉ line) :
    acceptedLines line = [trim line].filter isAccepted := by
  rw [acceptedLines, lines, piecesBetween_of_forall_not isLineFeed line (isLineFeed_eq_false hline),
    List.map_singleton]

theorem acceptedLines_append_lineFeed {line : Text} (hline : '\n' ∉ line) (text : Text) :
    acceptedLines (line ++ '\n' :: text)
      = [trim line].filter isAccepted ++ acceptedLines text := by
  rw [acceptedLines, lines, piecesBetween_append_cons isLineFeed line '\n' text
    (isLineFeed_eq_false hline) rfl, List.map_cons, ← List.singleton_append, List.filter_append]
  rfl

/-- Characters that are all of a class are all dropped. -/
theorem trim_of_whitespace {s : Text} (hs : ∀ c ∈ s, isWhitespace c = true) : trim s = [] := by
  rw [trim, List.dropWhile_eq_nil_iff.mpr hs]
  rfl

/-- A body that neither begins nor ends with whitespace is what is left of it between whitespace. -/
theorem trim_append {before body after : Text} (hbefore : ∀ c ∈ before, isWhitespace c = true)
    (hafter : ∀ c ∈ after, isWhitespace c = true)
    (hhead : ∀ c, body.head? = some c → isWhitespace c = false)
    (hlast : ∀ c, body.getLast? = some c → isWhitespace c = false) :
    trim (before ++ body ++ after) = body := by
  cases body with
  | nil =>
    refine trim_of_whitespace fun c hc => ?_
    rw [List.append_nil, List.mem_append] at hc
    exact hc.elim (hbefore c) (hafter c)
  | cons d body =>
    rw [trim, List.append_assoc,
      dropWhile_append_of_head isWhitespace before (d :: body ++ after) hbefore hhead,
      List.reverse_append, dropWhile_append_of_head isWhitespace after.reverse _
        (fun c hc => hafter c (List.mem_reverse.mp hc)) (by rwa [List.head?_reverse]),
      List.reverse_reverse]

end Sys2Proof

namespace Sys2Proof.Machine

/-- Settles O12: a line is its pieces between separators, without the empty ones. -/
theorem separatorsAndCaseAreLoose : Obligations.SeparatorsAndCaseAreLoose := by
  have hseparator := fun c => isSeparator_iff c
  have hother := fun c => isSeparator_eq_false_iff c
  refine ⟨fun s s' h => ?_, fun s t ht => ?_, rfl, fun c hc rest => ?_, fun w hne hw => ?_,
    fun s => ⟨decodeText_of_ascii, fun ⟨c, hc, hcode⟩ => ?_⟩, rfl, fun m operands => ?_⟩
  · have hpieces := piecesBetween_congr (p := isSeparator) (h.imp fun c d h => by
      rwa [hseparator, hseparator])
    rw [tokens_eq, tokens_eq, hpieces]
  · obtain ⟨hne, hchars⟩ := of_mem_tokens ht
    exact ⟨hne, fun c hc => (hchars c hc).imp_left (hother c).mp⟩
  · exact tokens_separator_cons ((hseparator c).mpr hc) rest
  · have hw' : ∀ c ∈ w, isSeparator c = false := fun c hc => (hother c).mpr (hw c hc)
    exact ⟨tokens_of_no_separator hne hw', fun c hc rest =>
      tokens_append_separator hne hw' ((hseparator c).mpr hc) rest⟩
  · exact decodeText_of_not_ascii fun hascii => absurd (hascii c hc) (by omega)
  · rw [decodeTokens_cons, decodeTokens_cons, upper_upper]

/-- Settles O13: the line feed cuts the text, and the whitespace is dropped from the front and, in the
reversed line, from the end. -/
theorem linesAreTakenInOrder : Obligations.LinesAreTakenInOrder := by
  refine ⟨fun line text hline => ?_, fun before body after hbefore hafter hhead hlast => ?_,
    fun line hline => ?_⟩
  · rw [acceptedLines_append_lineFeed hline, acceptedLines_of_no_lineFeed hline,
      filter_isAccepted_singleton]
    exact ⟨rfl, rfl⟩
  · exact trim_append (fun c hc => (isWhitespace_iff c).mpr (hbefore c hc))
      (fun c hc => (isWhitespace_iff c).mpr (hafter c hc))
      (fun c hc => by rw [← Bool.not_eq_true, isWhitespace_iff]; exact hhead c hc)
      (fun c hc => by rw [← Bool.not_eq_true, isWhitespace_iff]; exact hlast c hc)
  · exact trim_of_whitespace fun c hc => (isWhitespace_iff c).mpr (hline c hc)

end Sys2Proof.Machine
end

