-- ==== Sys2Proof/Proofs/ProgramLoad.lean ====
section
/-!
PROOFS. What a load leaves, which texts have a meaning, and the power-on state (30_encoding.md R82,
R85, R102; 70_reset_and_hazards.md R250 to R252).
-/

namespace Sys2Proof.Machine

/-! ### Records at consecutive addresses -/

@[simp] theorem makeRecord_address (a : Nat) (src : Source) : (makeRecord a src).address = a := by
  cases src <;> rfl

@[simp] theorem makeRecord_source (a : Nat) (src : Source) : (makeRecord a src).source = src := by
  cases src <;> rfl

theorem map_source_numberFrom (a : Nat) (srcs : List Source) :
    (numberFrom a srcs).map Record.source = srcs := by
  induction srcs generalizing a with
  | nil => rfl
  | cons src srcs ih => rw [numberFrom, List.map_cons, makeRecord_source, ih]

/-- The records have the addresses `a`, `a + 4`, `a + 8`, … (30_encoding.md R85). -/
theorem address_numberFrom (a : Nat) (srcs : List Source) (k : Nat)
    (hk : k < (numberFrom a srcs).length) : (numberFrom a srcs)[k].address = a + 4 * k := by
  induction srcs generalizing a k with
  | nil => cases hk
  | cons src srcs ih =>
    cases k with
    | zero => simp [numberFrom]
    | succ k =>
      simp only [numberFrom, List.getElem_cons_succ]
      rw [ih, Config.pcStep]
      omega

/-- Each record is the one its source gives at its address (10_state.md R32). -/
theorem mem_numberFrom {a : Nat} {srcs : List Source} {r : Record} (hr : r ∈ numberFrom a srcs) :
    r.source ∈ srcs ∧ r = makeRecord r.address r.source := by
  induction srcs generalizing a with
  | nil => cases hr
  | cons src srcs ih =>
    obtain rfl | hr := List.mem_cons.mp hr
    · simp
    · exact (ih hr).imp_left (List.mem_cons_of_mem src)

/-! ### The two loads as one -/

/-- The sources of what is loaded: the accepted lines of a text, or the words. -/
def LoadInput.sources : LoadInput → List Source
  | .text x => (acceptedLines x).map Source.text
  | .words ws => ws.map Source.word

/-- A text has a meaning when it is ASCII and every accepted line decodes; words always have one. -/
def LoadInput.HasMeaning : LoadInput → Prop
  | .text x => (∀ c ∈ x, c.toNat < 128) ∧ ∀ line ∈ acceptedLines x, ∃ i, decodeText line = .ok i
  | .words _ => True

/-- No line is refused exactly when every line decodes. -/
theorem firstRefusal_eq_none_iff (ls : List Text) :
    firstRefusal ls = none ↔ ∀ line ∈ ls, ∃ i, decodeText line = .ok i := by
  induction ls with
  | nil => simp [firstRefusal]
  | cons line ls ih => cases hdec : decodeText line <;> simp [firstRefusal, hdec, ih]

/-- A text with a meaning is loaded. -/
theorem loadProgram_of_hasMeaning {text : Text} (h : (LoadInput.text text).HasMeaning) (s : State) :
    loadProgram text s = .next (s.loaded (numberFrom 0 (LoadInput.text text).sources)) := by
  obtain ⟨hascii, hlines⟩ := h
  rw [loadProgram, if_pos ((all_isAscii_iff text).mpr hascii),
    (firstRefusal_eq_none_iff _).mpr hlines]
  rfl

/-- A text without a meaning is refused by name. -/
theorem loadProgram_of_not_hasMeaning {text : Text} (h : ¬ (LoadInput.text text).HasMeaning)
    (s : State) : ∃ r, loadProgram text s = .refused (.undecodable r) := by
  rw [loadProgram]
  by_cases hascii : text.all isAscii = true
  · rw [if_pos hascii]
    cases hrefusal : firstRefusal (acceptedLines text) with
    | none => exact absurd ⟨(all_isAscii_iff text).mp hascii,
        (firstRefusal_eq_none_iff _).mp hrefusal⟩ h
    | some r => exact ⟨r, rfl⟩
  · rw [if_neg hascii]
    exact ⟨_, rfl⟩

/-- A load answers a next state exactly when its input has a meaning, and then that of R251. -/
theorem load_eq_next_iff {input : LoadInput} {s t : State} : load input s = .next t
    ↔ input.HasMeaning ∧ t = s.loaded (numberFrom 0 input.sources) := by
  cases input with
  | words ws =>
    exact ⟨fun h => ⟨trivial, (Host.Outcome.next.inj h).symm⟩, fun h => h.2 ▸ rfl⟩
  | text x =>
    by_cases hmeaning : (LoadInput.text x).HasMeaning
    · rw [load, loadProgram_of_hasMeaning hmeaning, Host.Outcome.next.injEq]
      exact ⟨fun h => ⟨hmeaning, h.symm⟩, fun h => h.2.symm⟩
    · obtain ⟨r, hrefused⟩ := loadProgram_of_not_hasMeaning hmeaning s
      rw [load, hrefused]
      exact ⟨fun h => (by cases h), fun h => absurd h.1 hmeaning⟩

/-- Every source of an input with a meaning decodes. -/
theorem decodeSource_of_hasMeaning {input : LoadInput} (h : input.HasMeaning) :
    ∀ src ∈ input.sources, ∃ i, decodeSource src = .ok i := by
  cases input with
  | words ws => exact List.forall_mem_map.mpr fun w _ => ⟨decodeWord w, rfl⟩
  | text x =>
    obtain ⟨-, hlines⟩ := h
    exact List.forall_mem_map.mpr hlines

/-- With the register file of a reset every register reads 0 (10_state.md R38). -/
theorem x_of_cleared {t : State} (h : t.regs = Vector.replicate 32 0) (r : Reg) : t.x r = 0 := by
  simp [State.x, State.regWord, h]

/-! ### The statements -/

/-- Settles O14: a load of a text is refused by name where the text has no meaning. -/
theorem loadRefusesExactlyTheUndecodable : Obligations.LoadRefusesExactlyTheUndecodable := by
  intro text s
  have hiff : (∃ t, loadProgram text s = .next t) ↔ (LoadInput.text text).HasMeaning :=
    ⟨fun ⟨t, h⟩ => (load_eq_next_iff (input := .text text).mp h).1,
      fun h => ⟨_, loadProgram_of_hasMeaning h s⟩⟩
  exact ⟨hiff, fun h => loadProgram_of_not_hasMeaning (mt hiff.mpr h) s⟩

/-- Settles O15: a load leaves `State.loaded` of the numbered records. -/
theorem loadGivesFreshDefaults : Obligations.LoadGivesFreshDefaults := by
  intro input s t hload
  obtain ⟨-, rfl⟩ := load_eq_next_iff.mp hload
  refine ⟨x_of_cleared rfl, fun _ => rfl, rfl, List.isEmpty_iff, rfl, ?_, fun k hk => ?_⟩
  · cases input <;> exact map_source_numberFrom 0 _
  · exact (address_numberFrom 0 _ k hk).trans (Nat.zero_add _)

/-- Settles O16: that an input has a meaning and the records it gives do not depend on the state. -/
theorem loadForgetsThePast : Obligations.LoadForgetsThePast := by
  intro input s s' t hload
  obtain ⟨hmeaning, rfl⟩ := load_eq_next_iff.mp hload
  exact ⟨_, load_eq_next_iff.mpr ⟨hmeaning, rfl⟩, rfl, rfl, rfl, rfl, rfl⟩

/-- Settles O49: the records are numbered and decode, and the machine is halted at their end exactly
when there is none. -/
theorem loadEstablishesTheInvariant : Obligations.LoadEstablishesTheInvariant := by
  intro input s t hload
  obtain ⟨hmeaning, rfl⟩ := load_eq_next_iff.mp hload
  exact {
    memWf := List.Pairwise.nil
    zeroSlot := by simp
    addresses := fun k hk => (address_numberFrom 0 _ k hk).trans (Nat.zero_add _)
    decodes := fun r hr =>
      (mem_numberFrom hr).imp_left (decodeSource_of_hasMeaning hmeaning r.source)
    pcRange := ⟨0, Nat.zero_le _, rfl⟩
    passed := fun k _ hlt => absurd hlt (Nat.not_lt_zero _)
    emptyHalted := List.isEmpty_iff.mpr
    haltedAt := fun hhalt => .inl (by
      rw [loaded_prog, List.isEmpty_iff.mp hhalt]
      rfl)
    haltedResult := fun _ => rfl }

/-- Settles O18: the values of the reset state, with every register of the cleared file. -/
theorem powerOnState : Obligations.PowerOnState :=
  ⟨x_of_cleared rfl, fun _ => rfl, rfl, rfl, rfl⟩

/-- Settles O57: the four input cases of a cycle. -/
theorem commandsAreSerialised : Obligations.CommandsAreSerialised := fun _ _ => ⟨rfl, rfl, rfl, rfl⟩

/-! ### A word placed at the pc (30_encoding.md R102) -/

/-- The first record at the address a word is stored at holds that word. -/
theorem find?_storeWord (p : List Record) (a : Nat) (w : Ciw) :
    (storeWord p a w).find? (fun r => r.address == a) = some ⟨a, .word w, none⟩ := by
  induction p with
  | nil => simp [storeWord]
  | cons r p ih =>
    unfold storeWord
    split_ifs with hbefore hsame
    · simp
    · simp
    · simp [hsame, ih]

/-- Settles O25: the word is the first record at the pc, and the machine is running. -/
theorem placedWordIsTheNextInstruction : Obligations.PlacedWordIsTheNextInstruction := by
  intro s w
  have hword : BitVec.ofNat 64 (w.toNat % 2 ^ 64) = w := by
    rw [Nat.mod_eq_of_lt w.isLt, BitVec.ofNat_toNat, BitVec.setWidth_eq]
  have hfetch : (s.withFetchWord 64 w.toNat).fetch = some ⟨s.pc, .word w, none⟩ := by
    rw [State.withFetchWord, hword]
    exact find?_storeWord s.prog s.pc w
  exact ⟨step_eq_exec_of_decode rfl hfetch rfl, by rw [decodeTableWord, hword]⟩

end Sys2Proof.Machine
end

