-- ==== Sys2Proof/Proofs/WellFormedDecode.lean ====
section
/-!
PROOFS. What the decoders give is a decoded instruction of the spec (30_encoding.md R83, R84, R92 to
R97, R100).
-/

namespace Sys2Proof

/-! ### The characters of a token -/

/-- Trimming takes characters off and adds none. -/
theorem mem_of_mem_trim {s : Text} {c : Char} (hc : c ∈ trim s) : c ∈ s := by
  rw [trim, List.mem_reverse] at hc
  have hmid := List.mem_reverse.mp ((List.dropWhile_sublist isWhitespace).subset hc)
  exact (List.dropWhile_sublist isWhitespace).subset hmid

/-- An accepted line holds characters of the text and no line feed. -/
theorem of_mem_acceptedLines {text line : Text} (hline : line ∈ acceptedLines text) :
    ∀ c ∈ line, isLineFeed c = false ∧ c ∈ text := by
  intro c hc
  obtain ⟨hmap, -⟩ := List.mem_filter.mp hline
  obtain ⟨raw, hraw, rfl⟩ := List.mem_map.mp hmap
  exact mem_of_mem_piecesBetween hraw (mem_of_mem_trim hc)

/-- The codes that a mnemonic's character does not have: those beyond ASCII, of whitespace, LF and
separators, and of lower-case letters. -/
theorem mnemonicChar_iff (c : Char) : mnemonicChar c = true ↔ c.toNat < 128
    ∧ ¬ (9 ≤ c.toNat ∧ c.toNat ≤ 13) ∧ c.toNat ≠ 32 ∧ c.toNat ≠ 40 ∧ c.toNat ≠ 41 ∧ c.toNat ≠ 44
    ∧ ¬ (97 ≤ c.toNat ∧ c.toNat ≤ 122) := by
  simp only [mnemonicChar, List.contains_eq_mem, List.mem_cons, List.not_mem_nil, or_false,
    Bool.decide_or, Bool.not_or, Bool.not_and, Bool.and_eq_true, decide_eq_true_eq,
    Bool.not_eq_eq_eq_not, Bool.not_true, decide_eq_false_iff_not, Bool.or_eq_true]
  omega

/-- A token's character in upper case can stand in a mnemonic: it is ASCII, no separator, no line feed
and no lower-case letter. -/
theorem mnemonicChar_upperChar {c : Char} (hascii : c.toNat < 128) (hsep : isSeparator c = false)
    (hfeed : isLineFeed c = false) : mnemonicChar (upperChar c) = true := by
  by_cases hlower : 97 ≤ c.toNat ∧ c.toNat ≤ 122
  · have hcode := toNat_upperChar_of_lower hlower
    rw [mnemonicChar_iff, hcode]
    omega
  · rw [upperChar_of_not_lower hlower]
    simp only [isSeparator, isWhitespace, isPunctuation, isLineFeed, Bool.or_eq_false_iff,
      beq_eq_false_iff_ne] at hsep hfeed
    rw [mnemonicChar_iff]
    omega

/-! ### The decoders -/

/-- An unrecognised token, uppercased, is the mnemonic of an `UNKNOWN` of the spec. -/
theorem unrecognisedMnemonic_of {m : Text} (hne : m ≠ []) (hchars : ∀ c ∈ m, mnemonicChar c = true)
    (hm : m ∉ recognisedMnemonics) (hbeq : m ≠ "BEQ".toList) : unrecognisedMnemonic m = true := by
  simpa [unrecognisedMnemonic, hne, hm, Config.beqName] using ⟨hchars, hbeq⟩

theorem wellFormed_register : ∀ p ∈ registerMnemonics, ∀ a b c, (p.2 a b c).wellFormed = true := by
  simp only [registerMnemonics, List.forall_mem_cons]
  exact ⟨fun _ _ _ => rfl, fun _ _ _ => rfl, fun _ _ _ => rfl, fun _ _ _ => rfl, fun _ _ _ => rfl,
    fun _ _ _ => rfl, fun _ _ _ => rfl, List.forall_mem_nil _⟩

theorem wellFormed_immediate : ∀ p ∈ immediateMnemonics, ∀ a b v, (p.2 a b v).wellFormed = true := by
  simp only [immediateMnemonics, List.forall_mem_cons]
  exact ⟨fun _ _ _ => rfl, fun _ _ _ => rfl, fun _ _ _ => rfl, fun _ _ _ => rfl,
    List.forall_mem_nil _⟩

/-- What a mapped operand gives is in the range of the map. -/
theorem exists_of_map_ok {α : Type} {x : Except OperandStop α} {f : α → Instr} {i : Instr}
    (h : x.map f = .ok i) : ∃ a, i = f a := by
  cases x with
  | error e => cases h
  | ok a => exact ⟨a, (Except.ok.inj h).symm⟩

/-- A format that gives an instruction has read its two registers. -/
theorem exists_of_twoRegisters_ok {operands : List Text}
    {third : Reg → Reg → Except OperandStop Instr} {i : Instr}
    (h : twoRegisters operands third = .ok i) : ∃ a b, third a b = .ok i := by
  unfold twoRegisters at h
  cases ha : readReg operands 0 with
  | error e => rw [ha] at h; cases h
  | ok a =>
    cases hb : readReg operands 1 with
    | error e => rw [ha, Except.bind, hb] at h; cases h
    | ok b => exact ⟨a, b, by rwa [ha, Except.bind, hb] at h⟩

/-- The operands of a recognised mnemonic give one of its instructions. -/
theorem wellFormed_of_recognised {m : Text} {operands : List Text} {i : Instr}
    (hm : m ∈ recognisedMnemonics) (hread : readOperands m operands = .ok i) :
    i.wellFormed = true := by
  obtain ⟨p, hp, rfl⟩ | ⟨p, hp, rfl⟩ | rfl := recognised_cases hm
  · rw [readOperands_register p hp, formatR_eq_twoRegisters] at hread
    obtain ⟨a, b, hthird⟩ := exists_of_twoRegisters_ok hread
    obtain ⟨c, rfl⟩ := exists_of_map_ok hthird
    exact wellFormed_register p hp a b c
  · rw [readOperands_immediate p hp, formatI_eq_twoRegisters] at hread
    obtain ⟨a, b, hthird⟩ := exists_of_twoRegisters_ok hread
    obtain ⟨v, rfl⟩ := exists_of_map_ok hthird
    exact wellFormed_immediate p hp a b v
  · rw [readOperands_print, formatP_eq_map] at hread
    obtain ⟨a, rfl⟩ := exists_of_map_ok hread
    rfl

/-- The operands of a token with mnemonic characters give a decoded instruction. -/
theorem wellFormed_of_readOperands {m : Text} {operands : List Text} {i : Instr} (hne : m ≠ [])
    (hchars : ∀ c ∈ m, mnemonicChar c = true) (hread : readOperands m operands = .ok i) :
    i.wellFormed = true := by
  by_cases hm : m ∈ recognisedMnemonics
  · exact wellFormed_of_recognised hm hread
  · rw [readOperands_of_not_recognised hm] at hread
    obtain rfl := Except.ok.inj hread
    split_ifs with hbeq
    · rfl
    · exact unrecognisedMnemonic_of hne hchars hm hbeq

/-- A settled line is what its operands gave, or an `OPFAULT`. -/
theorem settleOperands_ok {r : Except OperandStop Instr} {i : Instr}
    (h : settleOperands r = .ok i) : r = .ok i ∨ ∃ cause, i = .opfault cause := by
  match r, h with
  | .ok _, h => exact .inl (congrArg Except.ok (Except.ok.inj h))
  | .error (.fault cause), h => exact .inr ⟨cause, (Except.ok.inj h).symm⟩

/-- An ASCII line without a line feed decodes to a decoded instruction of the spec. -/
theorem wellFormed_of_decodeText {line : Text} {i : Instr}
    (hchars : ∀ c ∈ line, c.toNat < 128 ∧ isLineFeed c = false) (hdec : decodeText line = .ok i) :
    i.wellFormed = true := by
  rw [decodeText_of_ascii fun c hc => (hchars c hc).1] at hdec
  cases htokens : tokens line with
  | nil => rw [htokens] at hdec; cases hdec
  | cons t operands =>
    obtain ⟨hne, ht⟩ := of_mem_tokens (s := line) (t := t) (htokens ▸ List.mem_cons_self)
    have hupper : ∀ c ∈ upper t, mnemonicChar c = true := List.forall_mem_map.mpr fun c hc => by
      obtain ⟨hsep, hline⟩ := ht c hc
      obtain ⟨hascii, hfeed⟩ := hchars c hline
      exact mnemonicChar_upperChar hascii hsep hfeed
    rw [htokens, decodeTokens_cons] at hdec
    obtain hread | ⟨cause, rfl⟩ := settleOperands_ok hdec
    · exact wellFormed_of_readOperands (by simpa [upper] using hne) hupper hread
    · rfl

/-- Every row of the table is a decoded instruction of the spec. -/
theorem wellFormed_rowInstr (n : Nat) (a b c : Reg) (imm : Int) :
    (rowInstr n a b c imm).wellFormed = true := by
  unfold rowInstr
  split <;> rfl

end Sys2Proof

namespace Sys2Proof.Machine

/-- Settles O17: a loaded line is ASCII without a line feed, and a word decodes to a row. -/
theorem loadedInstructionsAreWellFormed : Obligations.LoadedInstructionsAreWellFormed := by
  refine ⟨fun text s t hload r hr => ?_, fun w => wellFormed_rowInstr _ _ _ _ _⟩
  obtain ⟨hmeaning, rfl⟩ := (load_eq_next_iff (input := .text text)).mp hload
  obtain ⟨hsource, -⟩ := mem_numberFrom hr
  obtain ⟨line, hline, heq⟩ := List.mem_map.mp hsource
  obtain ⟨hascii, hlines⟩ := hmeaning
  obtain ⟨i, hdec⟩ := hlines line hline
  have hchars := of_mem_acceptedLines hline
  exact ⟨i, heq ▸ hdec, wellFormed_of_decodeText
    (fun c hc => ⟨hascii c (hchars c hc).2, (hchars c hc).1⟩) hdec⟩

end Sys2Proof.Machine
end

