-- ==== Sys2Proof/Proofs/WordImage.lean ====
section
/-!
PROOFS. A text-level machine and its word-level image, step by step and from the load on
(30_encoding.md R101, R102).
-/

namespace Sys2Proof.Machine

/-! ### Two states that agree but for the program and what was put out -/

/-- Registers, pc, flag and memory agree, and so do the success of the latest step and the number of
events the trace sink has received. -/
structure Alike (s t : State) : Prop where
  regs : s.regs = t.regs
  pc : s.pc = t.pc
  halted : s.halted = t.halted
  mem : s.mem = t.mem
  done : s.result.isSome = t.result.isSome
  sink : s.sinkCount = t.sinkCount

/-- What the fetched records of a machine and its image have in common. -/
def RecordImage (r q : Record) : Prop :=
  r.address = q.address ∧ ∃ i, decodeSource r.source = .ok i ∧ decodeSource q.source = .ok i.kept

/-- The image is a machine that is alike with the images of the records. -/
theorem isImage_iff {s t : State} :
    IsImage s t ↔ Alike s t ∧ List.Forall₂ RecordImage s.prog t.prog :=
  ⟨fun ⟨hregs, hpc, hhalted, hmem, hdone, hsink, hprog⟩ =>
      ⟨⟨hregs, hpc, hhalted, hmem, hdone, hsink⟩, hprog⟩,
    fun ⟨⟨hregs, hpc, hhalted, hmem, hdone, hsink⟩, hprog⟩ =>
      ⟨hregs, hpc, hhalted, hmem, hdone, hsink, hprog⟩⟩

section Alike

variable {s t : State} (h : Alike s t)
include h

theorem Alike.regWord (i : Reg) : s.regWord i = t.regWord i := regWord_congr t s h.regs i

theorem Alike.x (i : Reg) : s.x i = t.x i := x_congr t s h.regs i

theorem Alike.writeReg (i : Reg) (v : Int) : Alike (s.writeReg i v) (t.writeReg i v) where
  regs := by
    unfold State.writeReg
    split <;> simp [h.regs]
  pc := by simp [h.pc]
  halted := by simp [h.halted]
  mem := by simp [h.mem]
  done := by simp [h.done]
  sink := by simpa [State.sinkCount] using h.sink

theorem Alike.regReg (f : Int → Int → Int) (rd rs1 rs2 : Reg) :
    Alike (s.regReg f rd rs1 rs2) (t.regReg f rd rs1 rs2) := by
  rw [State.regReg, State.regReg, h.x, h.x]
  exact h.writeReg _ _

theorem Alike.regImm (f : Int → Int → Int) (rd rs1 : Reg) (imm : Int) :
    Alike (s.regImm f rd rs1 imm) (t.regImm f rd rs1 imm) := by
  rw [State.regImm, State.regImm, h.x]
  exact h.writeReg _ _

/-- The notification goes to the memory view, so the sink does not count it. -/
theorem Alike.store (a : Int) (v : Word) : Alike (s.store a v) (t.store a v) where
  regs := h.regs
  pc := h.pc
  halted := h.halted
  mem := by simp [h.mem]
  done := h.done
  sink := by simpa [State.sinkCount, Event.toSink] using h.sink

theorem Alike.complete (code code' : Config.Code7) (ann ann' : Annotation) :
    Alike (s.complete code ann) (t.complete code' ann') where
  regs := h.regs
  pc := by simp [h.pc]
  halted := h.halted
  mem := h.mem
  done := rfl
  sink := by simpa [State.sinkCount, Event.toSink] using h.sink

theorem Alike.raiseExecFault (cause cause' : FaultCause) :
    Alike (s.raiseExecFault cause) (t.raiseExecFault cause') where
  regs := h.regs
  pc := h.pc
  halted := rfl
  mem := h.mem
  done := rfl
  sink := by simpa [State.sinkCount, Event.toSink] using h.sink

theorem Alike.fetchMiss : Alike s.fetchMiss t.fetchMiss where
  regs := h.regs
  pc := h.pc
  halted := rfl
  mem := h.mem
  done := rfl
  sink := by simpa [State.sinkCount, Event.toSink] using h.sink

theorem Alike.haltedStep : Alike s.haltedStep t.haltedStep :=
  ⟨h.regs, h.pc, h.halted, h.mem, rfl, h.sink⟩

/-- Using up a free value is seen in no field that `Alike` speaks of. -/
theorem Alike.useFree_right : Alike s t.useFree :=
  ⟨h.regs, h.pc, h.halted, h.mem, h.done, h.sink⟩

theorem Alike.useFree_left : Alike s.useFree t :=
  ⟨h.regs, h.pc, h.halted, h.mem, h.done, h.sink⟩

/-- An instruction and what its word keeps of it lead alike states to alike states. -/
theorem Alike.exec_kept {i : Instr} {s' : State} (hexec : exec i s = .next s') :
    ∃ t', exec i.kept t = .next t' ∧ Alike s' t' := by
  cases i with
  | add rd rs1 rs2 | sub rd rs1 rs2 | and rd rs1 rs2 | or rd rs1 rs2 | slt rd rs1 rs2
  | mult rd rs1 rs2 | sll rd rs1 rs2 =>
    cases hexec
    exact ⟨_, rfl, (h.regReg _ rd rs1 rs2).complete _ _ _ _⟩
  | addi rd rs1 imm | slti rd rs1 imm =>
    cases hexec
    exact ⟨_, rfl, (h.regImm _ rd rs1 imm).complete _ _ _ _⟩
  | lw rd rs1 offset =>
    cases hexec
    refine ⟨_, exec_lw rd rs1 offset t, Alike.complete ?_ _ _ _ _⟩
    rw [← h.mem, ← h.x]
    exact h.writeReg _ _
  | sw rs2 rs1 offset =>
    cases hexec
    refine ⟨_, exec_sw rs2 rs1 offset t, Alike.complete ?_ _ _ _ _⟩
    rw [← h.regWord, ← h.x]
    exact h.store _ _
  | print rs =>
    cases hexec
    exact ⟨_, exec_print rs t, h.complete _ _ _ _⟩
  | beq =>
    cases hexec
    exact ⟨_, exec_beq t, h.complete _ _ _ _⟩
  | unknown m =>
    refine ⟨_, exec_unknown_none t, Alike.useFree_right ?_⟩
    cases m with
    | none =>
      cases hexec
      exact (h.complete _ _ _ _).useFree_left
    | some m =>
      cases hexec
      exact h.complete _ _ _ _
  | opfault cause =>
    cases hexec
    exact ⟨_, exec_opfault .badImmediate t, h.raiseExecFault _ _⟩

end Alike

/-! ### Fetch in a machine and in its image -/

/-- At one address a program and its image hold no record, or a record and its image. -/
theorem find?_recordImage {p q : List Record} (h : List.Forall₂ RecordImage p q) (a : Nat) :
    (p.find? (fun r => r.address == a) = none ∧ q.find? (fun r => r.address == a) = none)
      ∨ ∃ r r', p.find? (fun r => r.address == a) = some r
        ∧ q.find? (fun r => r.address == a) = some r' ∧ RecordImage r r' := by
  induction h with
  | nil => exact .inl ⟨rfl, rfl⟩
  | @cons r r' p q hhead _ ih =>
    have haddress := hhead.1
    by_cases ha : r.address = a
    · exact .inr ⟨r, r', by simp [ha], by simp [← haddress, ha], hhead⟩
    · simpa [List.find?_cons, ← haddress, beq_false_of_ne ha] using ih

theorem fetch_recordImage {s t : State} (h : Alike s t)
    (hprog : List.Forall₂ RecordImage s.prog t.prog) : (s.fetch = none ∧ t.fetch = none)
      ∨ ∃ r r', s.fetch = some r ∧ t.fetch = some r' ∧ RecordImage r r' := by
  unfold State.fetch
  rw [← h.pc]
  exact find?_recordImage hprog s.pc

/-- Settles O55: both machines are halted, miss the fetch, or run an instruction and what its word
keeps of it. -/
theorem textAndWordMachinesAgree : Obligations.TextAndWordMachinesAgree := by
  intro s t s' himage hstep
  obtain ⟨halike, hprog⟩ := isImage_iff.mp himage
  suffices hnext : ∃ t', step t = .next t' ∧ Alike s' t' by
    obtain ⟨t', hstep', halike'⟩ := hnext
    refine ⟨t', hstep', isImage_iff.mpr ⟨halike', ?_⟩⟩
    rwa [prog_of_step hstep, prog_of_step hstep']
  obtain ⟨hhalt, rfl⟩ | ⟨hrun, hmiss, rfl⟩ | ⟨r, i, hrun, hfetch, hdec, hexec⟩ := step_next_cases hstep
  · exact ⟨_, step_eq_haltedStep (halike.halted ▸ hhalt), halike.haltedStep⟩
  · obtain ⟨-, hmiss'⟩ | ⟨r, r', hsome, -⟩ := fetch_recordImage halike hprog
    · exact ⟨_, step_eq_fetchMiss (halike.halted ▸ hrun) hmiss', halike.fetchMiss⟩
    · cases hmiss.symm.trans hsome
  · obtain ⟨hnone, -⟩ | ⟨r₁, r', hsome, hfetch', -, j, hj, hdec'⟩ := fetch_recordImage halike hprog
    · cases hfetch.symm.trans hnone
    · obtain rfl := Option.some.inj (hfetch.symm.trans hsome)
      obtain rfl := Except.ok.inj (hdec.symm.trans hj)
      obtain ⟨t', hexec', halike'⟩ := halike.exec_kept hexec
      exact ⟨t', (step_eq_exec_of_decode (halike.halted ▸ hrun) hfetch' hdec').trans hexec', halike'⟩

/-! ### The load of a text and of its words -/

/-- The words of a text's lines are the words of the lines' instructions, line by line. -/
theorem forall₂_of_imageOf {ls : List Text} {ws : List Ciw} (h : imageOf ls = some ws) :
    List.Forall₂ (fun line w => ∃ i, decodeText line = .ok i ∧ encode i = some w) ls ws := by
  induction ls generalizing ws with
  | nil =>
    cases h
    exact .nil
  | cons line ls ih =>
    unfold imageOf at h
    cases hdec : decodeText line with
    | error e => simp [hdec] at h
    | ok i =>
      cases henc : encode i with
      | none => simp [hdec, henc] at h
      | some w =>
        cases himage : imageOf ls with
        | none => simp [hdec, henc, himage] at h
        | some us =>
          simp only [hdec, henc, himage, Option.some.injEq] at h
          subst h
          exact .cons ⟨i, hdec, henc⟩ (ih himage)

/-- Records numbered alike over lines and their words are images of each other. -/
theorem forall₂_recordImage_numberFrom {ls : List Text} {ws : List Ciw}
    (h : List.Forall₂ (fun line w => ∃ i, decodeText line = .ok i ∧ encode i = some w) ls ws)
    (a : Nat) : List.Forall₂ RecordImage (numberFrom a (ls.map .text)) (numberFrom a (ws.map .word)) := by
  induction h generalizing a with
  | nil => exact .nil
  | cons hhead _ ih =>
    obtain ⟨i, hdec, henc⟩ := hhead
    exact .cons ⟨rfl, i, hdec, congrArg Except.ok (decodeWord_of_encode henc)⟩ (ih _)

/-- A program and its image are empty together. -/
theorem isEmpty_of_recordImage {p q : List Record} (h : List.Forall₂ RecordImage p q) :
    p.isEmpty = q.isEmpty := by
  cases h <;> rfl

/-- Settles O56: both loads leave fresh defaults, and the records are images line by line. -/
theorem loadedWordsAreTheImage : Obligations.LoadedWordsAreTheImage := by
  intro text ws s t hload himage
  obtain ⟨-, rfl⟩ := (load_eq_next_iff (input := .text text)).mp hload
  have hprog := forall₂_recordImage_numberFrom (forall₂_of_imageOf himage) 0
  exact isImage_iff.mpr ⟨⟨rfl, rfl, isEmpty_of_recordImage hprog, rfl, rfl, rfl⟩, hprog⟩

end Sys2Proof.Machine
end
